-- ==== Sys2Proof/Word.lean ====
section
/-!
DEFINITION. The word types of the BitSeries core: `VALUE` and operands, the 72-bit command and response words, and the
8-bit character codes (spec/00_scope.md R5, R6, R7). The widths are fixed; the model does not generalise them (R6).
-/

namespace Sys2Proof

/-- R5, R10: the width `W` of `VALUE`, of the operand field `arg` and of the response field `data`. -/
abbrev Word := BitVec 64

/-- R32: the 32-bit operands (`n: u32`, `pos: i32`). -/
abbrev Half := BitVec 32

/-- R5: one character, `CHAR_W` = 8 bits. Each code is one character, whatever its value (R34). -/
abbrev Code := BitVec 8

/-- R31: the 72-bit command word `CW`. -/
abbrev CmdWord := BitVec 72

/-- R37: the 72-bit response word `RW`. -/
abbrev RespWord := BitVec 72

end Sys2Proof
end

