-- ==== Sys2Proof/Syntax.lean ====
section
/-!
DEFINITION. The commands of BSC-1 as syntax: one constructor of `Instr` for each row of spec/opcode_table.json
(spec/30_encoding.md R39), the mnemonics, the operand forms (R32), the shape of a row of the opcode map, and the lines of the
assembler (R44, R45).
-/

namespace Sys2Proof

/-- The fifteen commands (R39) with their operands as R32 and R33 take them from `arg`. The types have exactly the widths of
the operand forms, so every term is a command that some word encodes. The input characters `S` of `LDSTR` are no part of the
command word (R30, R42): they come with the word, in `Machine.State.input`. -/
inductive Instr where
  /-- `CLR` (R50). -/
  | clr
  /-- `LDU u` (R51): `u = arg[63:0]`. -/
  | ldu (u : Word)
  /-- `LDS i` (R52): the 64-bit two's-complement pattern of `i`. -/
  | lds (i : Word)
  /-- `LDSTR "s"` (R53): the length of the input character sequence. -/
  | ldstr (len : Word)
  /-- `PUSH b` (R60). -/
  | push (b : Bool)
  /-- `SHL n` (R61). -/
  | shl (n : Half)
  /-- `SHR n` (R62). -/
  | shr (n : Half)
  /-- `SHLV n` (R63). -/
  | shlv (n : Half)
  /-- `SHRV n` (R64). -/
  | shrv (n : Half)
  /-- `BTST pos` (R70): the 32-bit two's-complement pattern of `pos`. -/
  | btst (pos : Half)
  /-- `RUN` (R71). -/
  | run
  /-- `RDU` (R80). -/
  | rdu
  /-- `RDS` (R81). -/
  | rds
  /-- `RDW` (R82). -/
  | rdw
  /-- `RDSTR` (R83). -/
  | rdstr
deriving DecidableEq, Repr

/-- The fifteen mnemonics of Table R39. -/
inductive Mnemonic where
  | clr | ldu | lds | ldstr | push | shl | shr | shlv | shrv | btst | run | rdu | rds | rdw | rdstr
deriving DecidableEq, Repr

/-- The mnemonic of a command (Table R39). -/
def Instr.mnemonic : Instr → Mnemonic
  | .clr => .clr
  | .ldu _ => .ldu
  | .lds _ => .lds
  | .ldstr _ => .ldstr
  | .push _ => .push
  | .shl _ => .shl
  | .shr _ => .shr
  | .shlv _ => .shlv
  | .shrv _ => .shrv
  | .btst _ => .btst
  | .run => .run
  | .rdu => .rdu
  | .rds => .rds
  | .rdw => .rdw
  | .rdstr => .rdstr

/-- The four operand forms of Table R32. -/
inductive Form where
  /-- none: `arg[63:0]` is reserved -/
  | n
  /-- quad: all of `arg` is the operand -/
  | q
  /-- word: `arg[31:0]` is the operand, `arg[63:32]` is reserved -/
  | w
  /-- bit: `arg[0]` is the operand, `arg[63:1]` is reserved -/
  | b
deriving DecidableEq, Repr

/-- One row of the opcode map (Table R39). `pattern` is the table's `match`. -/
structure Row where
  mnemonic : Mnemonic
  op : BitVec 8
  form : Form
  mask : CmdWord
  pattern : CmdWord
deriving DecidableEq, Repr

/-- One line of the assembler (R44) before its operand is checked: numbers as the host wrote them, not yet cut to a field.
`ldmin` and `ldmax` are the two pseudo-instructions of R45; `word` is a raw `.word`. -/
inductive AsmLine where
  | clr
  | ldu (u : Nat)
  | lds (i : Int)
  | ldstr (text : List Char)
  | push (b : Nat)
  | shl (n : Nat)
  | shr (n : Nat)
  | shlv (n : Nat)
  | shrv (n : Nat)
  | btst (pos : Int)
  | run
  | rdu
  | rds
  | rdw
  | rdstr
  | ldmin
  | ldmax
  | word (cw : Nat)
deriving DecidableEq, Repr

/-- The response a listing expects after `->` (R44). -/
inductive Expected where
  | ok
  | okData (d : Nat)
  | okText (t : List Char)
  | overflow
  | invalidArgument
  | illegalCommand
deriving DecidableEq, Repr

end Sys2Proof
end

