-- ==== Sys2Proof/Decode.lean ====
section
/-!
DEFINITION. The command word (spec/30_encoding.md R31), the opcode map (Table R39), the decode procedure (R42), and after it the
encoder. Decoding is total: a word that matches no row is illegal (R40), which is `none`, and it reads `CW` only (R42).
-/

namespace Sys2Proof

/-- R31: `op = CW[71:64]`. -/
def opField (cw : CmdWord) : BitVec 8 := cw.extractLsb' 64 8

/-- R31: `arg = CW[63:0]`. -/
def argField (cw : CmdWord) : Word := cw.extractLsb' 0 64

/-- Table R39, row by row. -/
def opcodeTable : List Row := [
  ⟨.clr,   0x01, .n, 0xFF_FFFFFFFFFFFFFFFF, 0x01_0000000000000000⟩,
  ⟨.ldu,   0x02, .q, 0xFF_0000000000000000, 0x02_0000000000000000⟩,
  ⟨.lds,   0x03, .q, 0xFF_0000000000000000, 0x03_0000000000000000⟩,
  ⟨.ldstr, 0x04, .q, 0xFF_0000000000000000, 0x04_0000000000000000⟩,
  ⟨.push,  0x10, .b, 0xFF_FFFFFFFFFFFFFFFE, 0x10_0000000000000000⟩,
  ⟨.shl,   0x11, .w, 0xFF_FFFFFFFF00000000, 0x11_0000000000000000⟩,
  ⟨.shr,   0x12, .w, 0xFF_FFFFFFFF00000000, 0x12_0000000000000000⟩,
  ⟨.shlv,  0x13, .w, 0xFF_FFFFFFFF00000000, 0x13_0000000000000000⟩,
  ⟨.shrv,  0x14, .w, 0xFF_FFFFFFFF00000000, 0x14_0000000000000000⟩,
  ⟨.btst,  0x20, .w, 0xFF_FFFFFFFF00000000, 0x20_0000000000000000⟩,
  ⟨.run,   0x21, .n, 0xFF_FFFFFFFFFFFFFFFF, 0x21_0000000000000000⟩,
  ⟨.rdu,   0x30, .n, 0xFF_FFFFFFFFFFFFFFFF, 0x30_0000000000000000⟩,
  ⟨.rds,   0x31, .n, 0xFF_FFFFFFFFFFFFFFFF, 0x31_0000000000000000⟩,
  ⟨.rdw,   0x32, .n, 0xFF_FFFFFFFFFFFFFFFF, 0x32_0000000000000000⟩,
  ⟨.rdstr, 0x33, .n, 0xFF_FFFFFFFFFFFFFFFF, 0x33_0000000000000000⟩]

/-- R39: "a command word `CW` is the command of a row exactly when `CW & mask = match`". -/
def Row.covers (r : Row) (cw : CmdWord) : Bool := cw &&& r.mask == r.pattern

/-- R42 step (1): the row whose `op` equals `CW[71:64]`. -/
def rowOf (cw : CmdWord) : Option Row := opcodeTable.find? (fun r => r.op == opField cw)

/-- R42 step (3): the command of a row, its operand taken from `arg` by R33. -/
def instrOf (m : Mnemonic) (arg : Word) : Instr :=
  match m with
  | .clr => .clr
  | .ldu => .ldu arg
  | .lds => .lds arg
  | .ldstr => .ldstr arg
  | .push => .push (arg.getLsbD 0)
  | .shl => .shl (arg.extractLsb' 0 32)
  | .shr => .shr (arg.extractLsb' 0 32)
  | .shlv => .shlv (arg.extractLsb' 0 32)
  | .shrv => .shrv (arg.extractLsb' 0 32)
  | .btst => .btst (arg.extractLsb' 0 32)
  | .run => .run
  | .rdu => .rdu
  | .rds => .rds
  | .rdw => .rdw
  | .rdstr => .rdstr

/-- R42: the decode procedure. `none`: the word is illegal (R40). -/
def decode (cw : CmdWord) : Option Instr :=
  match rowOf cw with
  | none => none
  | some r => if r.covers cw then some (instrOf r.mnemonic (argField cw)) else none

/-- The instruction the decoder reads from the bits `w` of a row of `nbits` bits; bits above `nbits` are 0. The 72-bit word is one
whole unit with no byte order (R21), and the table numbers its bits as R31 does (log 9). A row of more than 72 bits is no command
word (R31, R43). -/
def decodeTableWord (nbits w : Nat) : Option Instr :=
  if nbits ≤ 72 then decode ((BitVec.ofNat nbits w).setWidth 72) else none

/-- Table R39: the opcode of each mnemonic. -/
def opcode : Mnemonic → BitVec 8
  | .clr => 0x01
  | .ldu => 0x02
  | .lds => 0x03
  | .ldstr => 0x04
  | .push => 0x10
  | .shl => 0x11
  | .shr => 0x12
  | .shlv => 0x13
  | .shrv => 0x14
  | .btst => 0x20
  | .run => 0x21
  | .rdu => 0x30
  | .rds => 0x31
  | .rdw => 0x32
  | .rdstr => 0x33

/-- R32, R33: the operand field of a command; the reserved bits are 0, also above a negative `pos`. -/
def operandField : Instr → Word
  | .clr => 0
  | .ldu u => u
  | .lds i => i
  | .ldstr len => len
  | .push b => (BitVec.ofBool b).setWidth 64
  | .shl n => n.setWidth 64
  | .shr n => n.setWidth 64
  | .shlv n => n.setWidth 64
  | .shrv n => n.setWidth 64
  | .btst pos => pos.setWidth 64
  | .run => 0
  | .rdu => 0
  | .rds => 0
  | .rdw => 0
  | .rdstr => 0

/-- R31: the command word of a command, `op` above `arg`. -/
def encode (i : Instr) : CmdWord := opcode i.mnemonic ++ operandField i

end Sys2Proof
end

