-- ==== Sys2Proof/Config.lean ====
section
/-!
DEFINITION. The parameters of spec/00_scope.md Table R5 (and R45). Every one is fixed by the spec; the model takes none as an
argument and has no free value (spec/93_implementation_defined.md: nothing is treated as `any value` or `parameter`).
-/

namespace Sys2Proof.Config

/-- R5, R35: the code of the character `'0'`. -/
def ch0 : Code := 0x30

/-- R5, R35: the code of the character `'1'`. -/
def ch1 : Code := 0x31

/-- R5: the length `STRLEN` of the output string of `RDSTR`. -/
def strLen : Nat := 64

/-- R5, R45: the minimum value `BS_MIN`. -/
def bsMin : Word := 0x0000_0000_0000_0000

/-- R5, R45: the maximum value `BS_MAX`, all 64 bits set. -/
def bsMax : Word := 0xFFFF_FFFF_FFFF_FFFF

/-- R5: `S64_MAX` = 2^63 - 1, the maximum signed 64-bit value. -/
def s64Max : Nat := 0x7FFF_FFFF_FFFF_FFFF

/-- R5, R65: the shift amount at and above which a shift gives zero. -/
def shiftLimit : Nat := 64

/-- R5, R70: the highest legal bit position of `BTST`. -/
def topPosition : Int := 63

end Sys2Proof.Config
end

