-- ==== Sys2Proof/Machine/Functions.lean ====
section
/-!
DEFINITION. The functions on 64-bit values and character sequences that the commands compute (the primitives of spec/00_scope.md
Table R8): shifts (R65), push (R60), bit test (R70), run of ones (R71), parsing (R53) and rendering (R83).
-/

namespace Sys2Proof.Machine

/-- R65: `(v * 2^n) mod 2^64` for `n <= 63`, 0 for `n >= 64`; the amount is not reduced modulo 64. -/
def shl64 (v : Word) (n : Nat) : Word :=
  if n < Config.shiftLimit then BitVec.ofNat 64 (v.toNat * 2 ^ n) else 0

/-- R65: `floor(v / 2^n)` for `n <= 63`, 0 for `n >= 64`; a logical shift. -/
def shr64 (v : Word) (n : Nat) : Word :=
  if n < Config.shiftLimit then BitVec.ofNat 64 (v.toNat / 2 ^ n) else 0

/-- R60, R53: `push1(v, b) = {v[62:0], b}`; old bit 63 is discarded. -/
def push1 (v : Word) (b : Bool) : Word := (v.extractLsb' 0 63).concat b

/-- R70: `VALUE[pos]`, for a position from 0 to 63. -/
def bitAt (v : Word) (pos : Int) : Bool := v.getLsbD pos.toNat

/-- R71: the loop `while k < 64 and VALUE[k] = 1: k <- k + 1`, with `fuel` positions left to look at from `k` on. -/
def onesRunFrom (v : Word) : (fuel k : Nat) → Nat
  | 0, k => k
  | fuel + 1, k => if v.getLsbD k then onesRunFrom v fuel (k + 1) else k

/-- R71: `ones_run(v)`, the number of consecutive set bits from bit 0 upward, 64 when all are set. -/
def onesRun (v : Word) : Nat := onesRunFrom v 64 0

/-- R53: pad on the left with `'0'` to length 64; a string of 64 or more is left as it is. -/
def padLeft (s : List Code) : List Code :=
  if s.length < Config.strLen then List.replicate (Config.strLen - s.length) Config.ch0 ++ s else s

/-- R53: "for every character in the padded string in left-to-right order, `push(c == '1')`", from 0. -/
def parseString (s : List Code) : Word :=
  (padLeft s).foldl (fun v c => push1 v (c == Config.ch1)) 0

/-- R83: the character of one bit. -/
def charOfBit (b : Bool) : Code := if b then Config.ch1 else Config.ch0

/-- R83, R21: `T[k]` shows bit `63 - k`, for `k` from 0 to 63. -/
def renderString (v : Word) : List Code :=
  (List.range Config.strLen).map (fun k => charOfBit (v.getLsbD (63 - k)))

end Sys2Proof.Machine
end

