-- ==== Sys2Proof/Machine/State.lean ====
section
/-!
DEFINITION. The state. The block has ONE register, `VALUE` (spec/10_state.md R10, R17). The other three fields are the host's side of
the command port, which a machine whose step takes only a state must hold: what the host presents (R118), the characters of the
command being performed (R30), the responses given (R36).
-/

namespace Sys2Proof.Machine

/-- The four values of the response's `status` field (Table R38, Table R90). -/
inductive Status where
  | ok
  | overflow
  | invalidArgument
  | illegalCommand
deriving DecidableEq, Repr

/-- A response `(RW, T)` (R36): the 72-bit response word (R37) and the output character sequence (R46). -/
structure Response where
  word : RespWord
  chars : List Code
deriving DecidableEq, Repr

/-- What the host does to the block, in the order it does it: one reset event (R110), or one command pair `(CW, S)` (R30). A reset
stands between commands and never inside one (R112). -/
inductive HostEvent where
  | reset
  | command (word : CmdWord) (chars : List Code)
deriving DecidableEq, Repr

/-- `value` is `VALUE`, the whole of the block's architectural state (R10). `pending` (log 1), `input` (log 2) and `responses` (log 3)
are the model's own: the host's side of the command port. -/
structure State where
  /-- R10: `VALUE`, 64 bits. -/
  value : Word
  /-- R25, R113, R118: the host's events not yet performed, in arrival order. -/
  pending : List HostEvent
  /-- R30, R34: the input characters `S` of the command being performed, `S[0]` first; empty between commands (R28). -/
  input : List Code
  /-- R25, R36: the responses given, oldest first. No command reads it (R13). -/
  responses : List Response
deriving DecidableEq, Repr

/-- The block has no fault: every command, legal or not, produces its response (R116), and what the spec calls an error is a status of
that response, after which the block goes on (R96, R97). So nothing raises a fault and this type has no constructor (log 5). -/
inductive Fault where
deriving DecidableEq, Repr

/-- Why the model gives a step no meaning. -/
inductive Refusal where
  /-- Raised by the dispatch for an instruction without a meaning. None is left. Safe. -/
  | notModelled (mnemonic : String)
  /-- Raised by `performCommand` and `execLdstr`: the pair `(CW, S)` breaks R30 (`S` is not `arg` characters long for `LDSTR`, or not empty
  for another word). The spec gives it no meaning and asks a model to refuse it (U9; log 4). Safe. -/
  | notACommand
deriving DecidableEq, Repr

/-- The machine right after reset: `VALUE` is 0 (R19, R110); nothing is presented and nothing has been answered (logs 1, 2, 3). -/
def State.reset : State where
  value := 0
  pending := []
  input := []
  responses := []

/-- What one step answers. -/
abbrev Result := Host.Outcome State Fault Refusal

end Sys2Proof.Machine
end

