-- ==== Sys2Proof/Machine/Flags.lean ====
section
/-!
DEFINITION. The block has no flag (spec/10_state.md R13): the outcome of a command is reported only in the status field of its
response. This file holds that report: the status codes (Table R38), the response word (Table R37) and the two conditions that end
a legal command with an error (Table R90).
-/

namespace Sys2Proof.Machine

/-- Table R38: the code of each status. -/
def Status.code : Status → BitVec 8
  | .ok => 0x00
  | .overflow => 0x01
  | .invalidArgument => 0x02
  | .illegalCommand => 0x03

/-- Table R38: the status of a code; the block never returns 0x04 to 0xFF. -/
def Status.ofCode (c : BitVec 8) : Option Status :=
  if c = 0x00 then some .ok
  else if c = 0x01 then some .overflow
  else if c = 0x02 then some .invalidArgument
  else if c = 0x03 then some .illegalCommand
  else none

/-- Table R37: `RW = {status, data}`. -/
def responseWord (st : Status) (data : Word) : RespWord := st.code ++ data

/-- Table R37: `status = RW[71:64]`. -/
def Response.status (r : Response) : BitVec 8 := r.word.extractLsb' 64 8

/-- Table R37: `data = RW[63:0]`. -/
def Response.data (r : Response) : Word := r.word.extractLsb' 0 64

/-- R81, R91: `VALUE > S64_MAX`, the condition of `Overflow`. -/
def exceedsSigned (v : Word) : Bool := decide (v.toNat > Config.s64Max)

/-- R70, R92: `pos < 0` or `pos > 63`, the condition of `InvalidArgument`. -/
def positionInvalid (pos : Int) : Bool := decide (pos < 0) || decide (pos > Config.topPosition)

end Sys2Proof.Machine
end

