-- ==== Sys2Proof/Machine/Ops.lean ====
section
/-!
DEFINITION. The named operations over the state: writing `VALUE`, ending a command with its response (`ok()`, `ok(d)`, `ok_str(T)` of
spec/00_scope.md Table R8), raising an error status (`raise <Status>`, spec/60_exceptions.md R96), the reset event
(spec/70_reset_and_hazards.md R110) and presenting a command. There is no return from an error (R97) and no memory (R20).
-/

namespace Sys2Proof.Machine

/-- R10, R11: `VALUE <- v`. -/
def State.setValue (s : State) (v : Word) : State := { s with value := v }

/-- R36: the command's one response is given, and nothing of its `S` is kept (R28). -/
def State.respond (s : State) (st : Status) (data : Word) (chars : List Code) : State :=
  { s with input := [], responses := s.responses ++ [⟨responseWord st data, chars⟩] }

/-- R8 `ok()`: status `OK`, data 0, `T` empty. -/
def ok (s : State) : Result := .next (s.respond .ok 0 [])

/-- R8 `ok(d)`: status `OK`, data `d`, `T` empty. -/
def okData (d : Word) (s : State) : Result := .next (s.respond .ok d [])

/-- R8 `ok_str(T)`: status `OK`, data 0, the output characters `T`. -/
def okString (chars : List Code) (s : State) : Result := .next (s.respond .ok 0 chars)

/-- R96 `raise <Status>(info)`: the command ends at once with this status, data 0 and `T` empty; `VALUE` keeps its value, nothing else is
saved or latched, and the block goes on with the next command (R97). -/
def raise (st : Status) (s : State) : Result := .next (s.respond st 0 [])

/-- R110: a reset event sets `VALUE` to 0 and produces no response. What the host has queued behind it, and the responses already given,
stay (log 6). -/
def State.applyReset (s : State) (rest : List HostEvent) : State := { s with value := 0, pending := rest }

/-- R30: the host presents the next command's input characters; the events after it wait (R25). -/
def State.present (s : State) (chars : List Code) (rest : List HostEvent) : State :=
  { s with pending := rest, input := chars }

/-- R9, R103, R118: with nothing presented the block "simply holds VALUE" (log 7). -/
def idle (s : State) : Result := .next s

end Sys2Proof.Machine
end

