-- ==== Sys2Proof/Machine/Construct.lean ====
section
/-!
DEFINITION. The construction commands (spec/40_construct.md R50 to R54): they overwrite `VALUE` without reading it.
-/

namespace Sys2Proof.Machine

/-- R50 `CLR`: `VALUE <- 0`. -/
def execClr (s : State) : Result := ok (s.setValue 0)

/-- R51 `LDU u`: `VALUE <- arg[63:0]`. -/
def execLdu (u : Word) (s : State) : Result := ok (s.setValue u)

/-- R52 `LDS i`: `VALUE <-` the 64-bit two's-complement pattern of `i`. -/
def execLds (i : Word) (s : State) : Result := ok (s.setValue i)

/-- R53 `LDSTR "s"`: `VALUE <-` the string `S` parsed, `len(S) = arg`. A pair whose `S` has another length is not a command (R30). -/
def execLdstr (len : Word) (s : State) : Result :=
  if s.input.length = len.toNat then ok (s.setValue (parseString s.input)) else .refused .notACommand

end Sys2Proof.Machine
end

