-- ==== Sys2Proof/Machine/Operands.lean ====
section
/-!
DEFINITION. How an operand field is read (spec/30_encoding.md R33) and how a result is presented in the 64-bit data field
(R37, decision D13). No operand is scaled, shifted or split across fields.
-/

namespace Sys2Proof.Machine

/-- R33: `n` of a shift is read unsigned, 0 to 2^32 - 1. -/
def shiftAmount (n : Half) : Nat := n.toNat

/-- R33: `pos` of `BTST` is read as two's complement (R7). -/
def bitPosition (pos : Half) : Int := pos.toInt

/-- R37: a Boolean in `data[0]`, `data[63:1] = 0`. -/
def dataOfBool (b : Bool) : Word := (BitVec.ofBool b).setWidth 64

/-- R37: a count, zero-extended. -/
def dataOfCount (k : Nat) : Word := BitVec.ofNat 64 k

/-- R37, R82: a 32-bit result, sign-extended to 64 bits. -/
def dataOfSigned (r : Half) : Word := r.signExtend 64

end Sys2Proof.Machine
end

