-- ==== Sys2Proof/Machine/Convert.lean ====
section
/-!
DEFINITION. The conversions out (spec/43_convert.md R80 to R84). They write nothing.
-/

namespace Sys2Proof.Machine

/-- R80 `RDU`: the data is `VALUE`. -/
def execRdu (s : State) : Result := okData s.value s

/-- R81 `RDS`: `Overflow` when `VALUE > 2^63 - 1`; else the data is `VALUE`. -/
def execRds (s : State) : Result :=
  if exceedsSigned s.value then raise .overflow s else okData s.value s

/-- R82 `RDW`: the data is `VALUE[31:0]`, sign-extended; never an error. -/
def execRdw (s : State) : Result := okData (dataOfSigned (s.value.extractLsb' 0 32)) s

/-- R83 `RDSTR`: the output characters are `VALUE` as 64 binary digits; the data is 0. -/
def execRdstr (s : State) : Result := okString (renderString s.value) s

end Sys2Proof.Machine
end

