-- ==== Sys2Proof/Machine/Mutate.lean ====
section
/-!
DEFINITION. The mutation and shift commands (spec/41_mutate.md R60 to R65). No shift amount is an error (R92).
-/

namespace Sys2Proof.Machine

/-- R60 `PUSH b`: `VALUE <- {VALUE[62:0], b}`. -/
def execPush (b : Bool) (s : State) : Result := ok (s.setValue (push1 s.value b))

/-- R61 `SHL n`: `VALUE <- shl64(VALUE, n)`. -/
def execShl (n : Half) (s : State) : Result := ok (s.setValue (shl64 s.value (shiftAmount n)))

/-- R62 `SHR n`: `VALUE <- shr64(VALUE, n)`. -/
def execShr (n : Half) (s : State) : Result := ok (s.setValue (shr64 s.value (shiftAmount n)))

/-- R63 `SHLV n`: the data is `shl64(VALUE, n)`; `VALUE` is not written. -/
def execShlv (n : Half) (s : State) : Result := okData (shl64 s.value (shiftAmount n)) s

/-- R64 `SHRV n`: the data is `shr64(VALUE, n)`; `VALUE` is not written. -/
def execShrv (n : Half) (s : State) : Result := okData (shr64 s.value (shiftAmount n)) s

end Sys2Proof.Machine
end

