-- ==== Sys2Proof/Machine/Query.lean ====
section
/-!
DEFINITION. The query commands (spec/42_query.md R70 to R72). They write nothing.
-/

namespace Sys2Proof.Machine

/-- R70 `BTST pos`: `InvalidArgument` when `pos < 0` or `pos > 63`; else the data is the bit at `pos`. -/
def execBtst (pos : Half) (s : State) : Result :=
  if positionInvalid (bitPosition pos) then raise .invalidArgument s
  else okData (dataOfBool (bitAt s.value (bitPosition pos))) s

/-- R71 `RUN`: the data is `ones_run(VALUE)`. -/
def execRun (s : State) : Result := okData (dataOfCount (onesRun s.value)) s

end Sys2Proof.Machine
end

