-- ==== Sys2Proof/Machine/Dispatch.lean ====
section
/-!
DEFINITION. The dispatch: one arm for each command of spec/opcode_table.json, one direct call of its meaning.
-/

namespace Sys2Proof.Machine

def exec (i : Instr) (s : State) : Host.Outcome State Fault Refusal :=
  match i with
  | .clr => Sys2Proof.Machine.execClr s
  | .ldu u => Sys2Proof.Machine.execLdu u s
  | .lds i64 => Sys2Proof.Machine.execLds i64 s
  | .ldstr len => Sys2Proof.Machine.execLdstr len s
  | .push b => Sys2Proof.Machine.execPush b s
  | .shl n => Sys2Proof.Machine.execShl n s
  | .shr n => Sys2Proof.Machine.execShr n s
  | .shlv n => Sys2Proof.Machine.execShlv n s
  | .shrv n => Sys2Proof.Machine.execShrv n s
  | .btst pos => Sys2Proof.Machine.execBtst pos s
  | .run => Sys2Proof.Machine.execRun s
  | .rdu => Sys2Proof.Machine.execRdu s
  | .rds => Sys2Proof.Machine.execRds s
  | .rdw => Sys2Proof.Machine.execRdw s
  | .rdstr => Sys2Proof.Machine.execRdstr s

end Sys2Proof.Machine
end

