-- ==== Sys2Proof/WellFormed.lean ====
section
/-!
DEFINITION. What is well formed. An `Instr` is always a legal command: the widths of the operand forms (R32) are in its types.
Two checks remain: a command's word and its input characters must belong together (R30, R34), and an assembler line's operand
must be in the range of R44 before it is cut to a field.
-/

namespace Sys2Proof

/-- R30, R34: how many input characters a command takes: `arg` for `LDSTR`, none for every other. -/
def Instr.inputLength : Instr → Nat
  | .clr => 0
  | .ldu _ => 0
  | .lds _ => 0
  | .ldstr len => len.toNat
  | .push _ => 0
  | .shl _ => 0
  | .shr _ => 0
  | .shlv _ => 0
  | .shrv _ => 0
  | .btst _ => 0
  | .run => 0
  | .rdu => 0
  | .rds => 0
  | .rdw => 0
  | .rdstr => 0

/-- R30: "`S` is empty for every command except `LDSTR`; for `LDSTR`, `len(S)` equals the `arg` field of `CW`". -/
def Instr.takesInput (i : Instr) (chars : List Code) : Bool :=
  chars.length == i.inputLength

/-- R44: a signed `w`-bit operand, -2^(w-1) to 2^(w-1) - 1. -/
def signedInRange (w : Nat) (i : Int) : Bool :=
  decide (-(2 ^ (w - 1)) ≤ i) && decide (i < 2 ^ (w - 1))

/-- R44: the operand ranges, outside which the assembler refuses the line. The codes of the characters of a text are the ASCII
codes (R44), so a character without one is refused (log 8), and so is a text longer than `arg` can say (R34). -/
def AsmLine.inRange : AsmLine → Bool
  | .clr => true
  | .ldu u => decide (u < 2 ^ 64)
  | .lds i => signedInRange 64 i
  | .ldstr text => decide (text.length < 2 ^ 64) && text.all (fun c => decide (c.toNat < 128))
  | .push b => decide (b < 2)
  | .shl n => decide (n < 2 ^ 32)
  | .shr n => decide (n < 2 ^ 32)
  | .shlv n => decide (n < 2 ^ 32)
  | .shrv n => decide (n < 2 ^ 32)
  | .btst pos => signedInRange 32 pos
  | .run => true
  | .rdu => true
  | .rds => true
  | .rdw => true
  | .rdstr => true
  | .ldmin => true
  | .ldmax => true
  | .word cw => decide (cw < 2 ^ 72)

end Sys2Proof
end

