-- ==== Sys2Proof/Machine/Perform.lean ====
section
/-!
DEFINITION. Performing one presented command pair `(CW, S)` (spec/30_encoding.md R30, R42; spec/60_exceptions.md R93, R95), and the host
event that presents the instruction of a table word (for `State.withFetchWord`).
-/

namespace Sys2Proof.Machine

/-- R42, R95: legality of the word first. A legal word with the input characters R30 gives it is performed; an illegal word, which never
has an `S` (R93), is answered `IllegalCommand`. A pair that breaks R30 is refused (log 4). -/
def performCommand (cw : CmdWord) (s : State) : Result :=
  match decode cw with
  | some i => if i.takesInput s.input then exec i s else .refused .notACommand
  | none => if s.input.isEmpty then raise .illegalCommand s else .refused .notACommand

/-- How many input characters R30 asks for beside a command word: none beside an illegal one (R93). -/
def inputLengthOf (cw : CmdWord) : Nat :=
  match decode cw with
  | some i => i.inputLength
  | none => 0

/-- The host event that presents the bits `w` of a table row of `nbits` bits: the command word, and beside an `LDSTR` word as many
characters of code 0 as its `arg` says (every bit of the instruction above `nbits` is 0; log 9). -/
def eventOfTableWord (nbits w : Nat) : HostEvent :=
  let cw := (BitVec.ofNat nbits w).setWidth 72
  .command cw (List.replicate (inputLengthOf cw) 0)

end Sys2Proof.Machine
end

