-- ==== Sys2Proof/Machine/Step.lean ====
section
/-!
DEFINITION. One step: the next event of the host takes effect, completely (spec/20_memory.md R23, R25). The machine fetches nothing: its
next instruction is the first command the host has pending (spec/10_state.md R12).
-/

namespace Sys2Proof.Machine

/-- R25: the first pending event is performed: a reset (R110), or one whole command (R30). With none the block holds `VALUE` (R103). -/
def step (s : State) : Host.Outcome State Fault Refusal :=
  match s.pending with
  | [] => idle s
  | .reset :: rest => .next (s.applyReset rest)
  | .command cw chars :: rest => performCommand cw (s.present chars rest)

/-- `s` with the instruction of a table word presented as the host's NEXT event, before whatever waits (logs 1 and 9). -/
def State.withFetchWord (s : State) (nbits w : Nat) : State :=
  { s with pending := eventOfTableWord nbits w :: s.pending }

end Sys2Proof.Machine
end

