-- ==== Sys2Proof/Machine/Assembler.lean ====
section
/-!
DEFINITION. The assembler of spec/30_encoding.md R44 and R45: from a line to the command pair it stands for, from the text of a line to
the line, and what a listing's expected response says. It is a tool of the host; the block never runs it.
-/

namespace Sys2Proof

open Sys2Proof.Machine

/-- R44: "the character codes, one per character"; for these characters the code is the ASCII code. -/
def codeOfChar (c : Char) : Code := BitVec.ofNat 8 c.toNat

/-- R44, R45: the instruction of a line, its operand cut to its field; a raw `.word` is no instruction. -/
def AsmLine.instr : AsmLine → Option Instr
  | .clr => some .clr
  | .ldu u => some (.ldu (BitVec.ofNat 64 u))
  | .lds i => some (.lds (BitVec.ofInt 64 i))
  | .ldstr text => some (.ldstr (BitVec.ofNat 64 text.length))
  | .push b => some (.push (b == 1))
  | .shl n => some (.shl (BitVec.ofNat 32 n))
  | .shr n => some (.shr (BitVec.ofNat 32 n))
  | .shlv n => some (.shlv (BitVec.ofNat 32 n))
  | .shrv n => some (.shrv (BitVec.ofNat 32 n))
  | .btst pos => some (.btst (BitVec.ofInt 32 pos))
  | .run => some .run
  | .rdu => some .rdu
  | .rds => some .rds
  | .rdw => some .rdw
  | .rdstr => some .rdstr
  | .ldmin => some (.ldu Config.bsMin)
  | .ldmax => some (.ldu Config.bsMax)
  | .word _ => none

/-- R44: the input characters a line delivers beside its word: the text of `LDSTR`, nothing for the others. A raw `.word` delivers none. -/
def AsmLine.chars : AsmLine → List Code
  | .ldstr text => text.map codeOfChar
  | .clr => []
  | .ldu _ => []
  | .lds _ => []
  | .push _ => []
  | .shl _ => []
  | .shr _ => []
  | .shlv _ => []
  | .shrv _ => []
  | .btst _ => []
  | .run => []
  | .rdu => []
  | .rds => []
  | .rdw => []
  | .rdstr => []
  | .ldmin => []
  | .ldmax => []
  | .word _ => []

/-- R44: the command word of a line. -/
def AsmLine.commandWord (a : AsmLine) : CmdWord :=
  match a with
  | .word cw => BitVec.ofNat 72 cw
  | other => (other.instr.map encode).getD 0

/-- R44: the command pair of a line; an operand outside its range is refused. -/
def assemble (a : AsmLine) : Option HostEvent :=
  if a.inRange then some (.command a.commandWord a.chars) else none

/-- R44: a program, one command per line, in order; one refused line refuses the program. -/
def assembleProgram : List AsmLine → Option (List HostEvent)
  | [] => some []
  | a :: rest => (assemble a).bind fun e => (assembleProgram rest).map fun es => e :: es

/-! The text of a line. White space is the space and the tab (log 8). -/

/-- White space between the parts of a line. -/
def isBlank (c : Char) : Bool := c == ' ' || c == '\t'

/-- The text without white space at either end. -/
def trimBlanks (cs : List Char) : List Char :=
  ((cs.dropWhile isBlank).reverse.dropWhile isBlank).reverse

/-- The value of a hexadecimal digit. -/
def digitValue (c : Char) : Option Nat :=
  if '0' ≤ c ∧ c ≤ '9' then some (c.toNat - 48)
  else if 'a' ≤ c ∧ c ≤ 'f' then some (c.toNat - 87)
  else if 'A' ≤ c ∧ c ≤ 'F' then some (c.toNat - 55)
  else none

/-- R7: digits of one base, at least one, with "`_` inside a number" a separator. DESIGN CHOICE (log 8): R7 does not say where inside a number a
`_` may stand, and this reader drops it wherever it stands among the digits: between two of them, before the first (also right after `0x`
or `0b`), after the last, and doubled. A text of `_` alone is no number. `acc` is the number read so far, `seen` whether a digit
has been read. -/
def readDigits (base : Nat) : List Char → (acc : Nat) → (seen : Bool) → Option Nat
  | [], acc, seen => if seen then some acc else none
  | '_' :: cs, acc, seen => readDigits base cs acc seen
  | c :: cs, acc, _ =>
    match digitValue c with
    | some d => if d < base then readDigits base cs (acc * base + d) true else none
    | none => none

/-- R7: "Numbers with `0x` are hexadecimal, with `0b` binary, otherwise decimal". -/
def readNumber : List Char → Option Nat
  | '0' :: 'x' :: cs => readDigits 16 cs 0 false
  | '0' :: 'b' :: cs => readDigits 2 cs 0 false
  | cs => readDigits 10 cs 0 false

/-- R44: a signed decimal number. -/
def readSigned : List Char → Option Int
  | '-' :: cs => (readDigits 10 cs 0 false).map fun n => -(n : Int)
  | cs => (readDigits 10 cs 0 false).map fun n => (n : Int)

/-- R44, R45: the operand of `LDU`, a number or a constant symbol. -/
def readUnsignedOrSymbol (cs : List Char) : Option Nat :=
  if cs = ['B', 'S', '_', 'M', 'I', 'N'] then some Config.bsMin.toNat
  else if cs = ['B', 'S', '_', 'M', 'A', 'X'] then some Config.bsMax.toNat
  else readNumber cs

/-- R44: the operand of `PUSH`: `0` or `1`, or `false` or `true` for them. -/
def readBit (cs : List Char) : Option Nat :=
  if cs = ['t', 'r', 'u', 'e'] then some 1
  else if cs = ['f', 'a', 'l', 's', 'e'] then some 0
  else readNumber cs

/-- A double-quoted text and what stands after its closing quote; the first `"` closes it. -/
def readQuoted : List Char → Option (List Char × List Char)
  | '"' :: cs =>
    match cs.dropWhile (fun c => c != '"') with
    | '"' :: rest => some (cs.takeWhile (fun c => c != '"'), rest)
    | _ => none
  | _ => none

/-- An operand without quotes ends before `;` (a comment) or `->` (an expected response). -/
def splitOperand : List Char → List Char × List Char
  | [] => ([], [])
  | ';' :: cs => ([], ';' :: cs)
  | '-' :: '>' :: cs => ([], '-' :: '>' :: cs)
  | c :: cs => let (a, b) := splitOperand cs; (c :: a, b)

/-- R44: the line of a mnemonic and its operand text (trimmed; empty when there is none). `LDSTR` is read by `parseLine`. -/
def lineOf (mnemonic operand : List Char) : Option AsmLine :=
  let plain (a : AsmLine) : Option AsmLine := if operand.isEmpty then some a else none
  if mnemonic = ['C', 'L', 'R'] then plain .clr
  else if mnemonic = ['L', 'D', 'U'] then (readUnsignedOrSymbol operand).map .ldu
  else if mnemonic = ['L', 'D', 'S'] then (readSigned operand).map .lds
  else if mnemonic = ['P', 'U', 'S', 'H'] then (readBit operand).map .push
  else if mnemonic = ['S', 'H', 'L'] then (readNumber operand).map .shl
  else if mnemonic = ['S', 'H', 'R'] then (readNumber operand).map .shr
  else if mnemonic = ['S', 'H', 'L', 'V'] then (readNumber operand).map .shlv
  else if mnemonic = ['S', 'H', 'R', 'V'] then (readNumber operand).map .shrv
  else if mnemonic = ['B', 'T', 'S', 'T'] then (readSigned operand).map .btst
  else if mnemonic = ['R', 'U', 'N'] then plain .run
  else if mnemonic = ['R', 'D', 'U'] then plain .rdu
  else if mnemonic = ['R', 'D', 'S'] then plain .rds
  else if mnemonic = ['R', 'D', 'W'] then plain .rdw
  else if mnemonic = ['R', 'D', 'S', 'T', 'R'] then plain .rdstr
  else if mnemonic = ['L', 'D', 'M', 'I', 'N'] then plain .ldmin
  else if mnemonic = ['L', 'D', 'M', 'A', 'X'] then plain .ldmax
  else if mnemonic = ['.', 'w', 'o', 'r', 'd'] then (readNumber operand).map .word
  else none

/-- R44: `OK`, `OK <data>`, `OK "<T>"`, or the name of an error status. -/
def parseExpected (text : List Char) : Option Expected :=
  match trimBlanks text with
  | 'O' :: 'K' :: rest =>
    match rest with
    | [] => some .ok
    | c :: _ =>
      if isBlank c then
        match readQuoted (trimBlanks rest) with
        | some (t, after) => if after.isEmpty then some (.okText t) else none
        | none => (readNumber (trimBlanks rest)).map .okData
      else none
  | cs =>
    if cs = ['O', 'v', 'e', 'r', 'f', 'l', 'o', 'w'] then some .overflow
    else if cs = ['I', 'n', 'v', 'a', 'l', 'i', 'd', 'A', 'r', 'g', 'u', 'm', 'e', 'n', 't'] then some .invalidArgument
    else if cs = ['I', 'l', 'l', 'e', 'g', 'a', 'l', 'C', 'o', 'm', 'm', 'a', 'n', 'd'] then some .illegalCommand
    else none

/-- What stands after the operand: nothing or a comment, or `->` and an expected response (R44). -/
def parseTail (text : List Char) : Option (Option Expected) :=
  match text.dropWhile isBlank with
  | [] => some none
  | ';' :: _ => some none
  | '-' :: '>' :: rest => (parseExpected (rest.takeWhile (fun c => c != ';'))).map some
  | _ => none

/-- R44: the text of one line: a mnemonic in capitals, at most one operand, an optional comment from `;` to the end of the line; in a
listing, the expected response after `->`. A text in double quotes may hold any character but `"`. -/
def parseLine (text : List Char) : Option (AsmLine × Option Expected) :=
  let body := text.dropWhile isBlank
  let inMnemonic (c : Char) : Bool := !isBlank c && c != ';'
  let mnemonic := body.takeWhile inMnemonic
  let rest := body.dropWhile inMnemonic
  if mnemonic = ['L', 'D', 'S', 'T', 'R'] then
    match readQuoted (rest.dropWhile isBlank) with
    | some (t, after) => (parseTail after).map fun e => (.ldstr t, e)
    | none => none
  else
    let (operand, after) := splitOperand rest
    (lineOf mnemonic (trimBlanks operand)).bind fun a => (parseTail after).map fun e => (a, e)

/-- R44 with R8: whether a response is the one a listing expects: `OK` is `ok()`, `OK <data>` is `ok(d)`, `OK "<T>"` is `ok_str(T)`, and an
error has data 0 and no characters (R96). -/
def Machine.Response.answers (r : Response) : Expected → Bool
  | .ok => r == ⟨responseWord .ok 0, []⟩
  | .okData d => decide (d < 2 ^ 64) && r == ⟨responseWord .ok (BitVec.ofNat 64 d), []⟩
  | .okText t => r == ⟨responseWord .ok 0, t.map codeOfChar⟩
  | .overflow => r == ⟨responseWord .overflow 0, []⟩
  | .invalidArgument => r == ⟨responseWord .invalidArgument 0, []⟩
  | .illegalCommand => r == ⟨responseWord .illegalCommand 0, []⟩

end Sys2Proof
end

