-- ==== Sys2Proof/Safety.lean ====
section
/-!
DEFINITION. The words claims are stated in: what the host presents, what it must do (spec/70_reset_and_hazards.md R118), what a run
answers, when a run went without an error (spec/60_exceptions.md R105), and which command an assembler line stands for
(spec/30_encoding.md R44).
-/

namespace Sys2Proof

/-- R44, R45: the line is this command with this operand, and these are its input characters: a number of the line is the operand's unsigned
value, a signed number its two's-complement reading, the characters' codes are those of the text, one each (ASCII, log 8). A raw `.word`
stands for no command of its own. -/
def AsmLine.standsFor (a : AsmLine) (i : Instr) (chars : List Code) : Prop :=
  match a with
  | .clr => i = .clr ∧ chars = []
  | .ldu u => ∃ w : Word, w.toNat = u ∧ i = .ldu w ∧ chars = []
  | .lds n => ∃ w : Word, w.toInt = n ∧ i = .lds w ∧ chars = []
  | .ldstr text => ∃ w : Word, w.toNat = text.length ∧ i = .ldstr w ∧
      chars.map BitVec.toNat = text.map Char.toNat ∧ ∀ c ∈ text, c.toNat < 128
  | .push b => ∃ bit : Bool, bit.toNat = b ∧ i = .push bit ∧ chars = []
  | .shl n => ∃ w : Half, w.toNat = n ∧ i = .shl w ∧ chars = []
  | .shr n => ∃ w : Half, w.toNat = n ∧ i = .shr w ∧ chars = []
  | .shlv n => ∃ w : Half, w.toNat = n ∧ i = .shlv w ∧ chars = []
  | .shrv n => ∃ w : Half, w.toNat = n ∧ i = .shrv w ∧ chars = []
  | .btst pos => ∃ w : Half, w.toInt = pos ∧ i = .btst w ∧ chars = []
  | .run => i = .run ∧ chars = []
  | .rdu => i = .rdu ∧ chars = []
  | .rds => i = .rds ∧ chars = []
  | .rdw => i = .rdw ∧ chars = []
  | .rdstr => i = .rdstr ∧ chars = []
  | .ldmin => i = .ldu 0x0000000000000000 ∧ chars = []
  | .ldmax => i = .ldu 0xFFFFFFFFFFFFFFFF ∧ chars = []
  | .word _ => False

namespace Machine

/-- The host presents a command without input characters. -/
def cmd (i : Instr) : HostEvent := .command (encode i) []

/-- The host presents `LDSTR` with the string `S`, its length in `arg` (R30). It is a command pair when `len(S) < 2^64` (R34). -/
def ldstrCmd (s : List Code) : HostEvent := .command (encode (.ldstr (BitVec.ofNat 64 s.length))) s

/-- The state with these events, and no others, pending. -/
def State.given (s : State) (es : List HostEvent) : State := { s with pending := es }

/-- R30, R118: a pair the host may present: exactly `arg` characters with an `LDSTR` word, none with any other word. -/
def HostEvent.isPaired : HostEvent → Bool
  | .reset => true
  | .command cw chars =>
    match decode cw with
    | some i => i.takesInput chars
    | none => chars.isEmpty

/-- R118: the host keeps its duty in everything it has pending. -/
def State.hostObeys (s : State) : Bool := s.pending.all HostEvent.isPaired

/-- How many commands, not counting resets, are in a list of events. -/
def commandCount : List HostEvent → Nat
  | [] => 0
  | .reset :: es => commandCount es
  | .command _ _ :: es => commandCount es + 1

/-- R105: "every response had status `OK`". -/
def State.allAnsweredOk (s : State) : Bool := s.responses.all (fun r => r.status == 0x00)

/-- R36, R37, R38, R46: the shape of every response of the block: one of the four statuses; data 0 whenever the status is not `OK`; `T` is
empty, or 64 characters each `'0'` or `'1'`, and then the status is `OK` and data is 0. -/
def Response.wellShaped (r : Response) : Prop :=
  r.status.toNat ≤ 3 ∧
  (r.status ≠ 0x00 → r.data = 0 ∧ r.chars = []) ∧
  (r.chars = [] ∨
    (r.status = 0x00 ∧ r.data = 0 ∧ r.chars.length = 64 ∧ ∀ c ∈ r.chars, c = Config.ch0 ∨ c = Config.ch1))

/-- What every step keeps: nothing of a command's `S` is left between steps (R28), and every response given is of the spec's shape. -/
def State.Inv (s : State) : Prop := s.input = [] ∧ ∀ r ∈ s.responses, r.wellShaped

/-- R36: `t` is `s` after one command that left `value` in `VALUE` and was answered with this status, data and output characters: exactly one
response is added, after those given before, and nothing else of the state is changed (nothing of `S` is kept, R28). -/
def Answered (s t : State) (value : Word) (status : BitVec 8) (data : Word) (chars : List Code) : Prop :=
  t.value = value ∧ t.pending = s.pending ∧ t.input = [] ∧
  ∃ r : Response, t.responses = s.responses ++ [r] ∧
    r.word.extractLsb' 64 8 = status ∧ r.word.extractLsb' 0 64 = data ∧ r.chars = chars

end Machine

end Sys2Proof
end

