-- ==== Sys2Proof/Certificates/Slice0/Obligations.lean ====
section
/-!
DEFINITION. The statements for the provers. Rule numbers are those of spec/. `Answered s t v status data chars` (Safety.lean) says that `t` is
`s` after one command: `VALUE` is `v`, exactly one response was added, with this status, data and output characters, and nothing else
changed; it is the frame of every command (the block has no other register, no flag and no memory, R10, R13, R20).
-/

open Sys2Proof Sys2Proof.Machine

/-! ### Encoding -/

/-- R33, R39, R42: decoding the word of a command gives the command, with every operand value its form admits. -/
def Obligations.DecodeEncodeRoundTrip : Prop :=
  ∀ i : Instr, decode (encode i) = some i

/-- R31, R32, R39, R41: no two words stand for one command with one operand: a legal word is the word of the command it decodes to, so its
reserved bits are 0. -/
def Obligations.LegalWordIsTheWordOfItsCommand : Prop :=
  ∀ (cw : CmdWord) (i : Instr), decode cw = some i → encode i = cw

/-- R39, the fifteen rows of its table: a word is the command of a row exactly when `CW & mask = match`, and no two rows overlap. -/
def Obligations.WordIsTheCommandOfARowExactlyWhenItMatches : Prop :=
  ∀ rows : List (Mnemonic × CmdWord × CmdWord), rows = [
      (.clr,   0xFF_FFFFFFFFFFFFFFFF, 0x01_0000000000000000), (.ldu,   0xFF_0000000000000000, 0x02_0000000000000000),
      (.lds,   0xFF_0000000000000000, 0x03_0000000000000000), (.ldstr, 0xFF_0000000000000000, 0x04_0000000000000000),
      (.push,  0xFF_FFFFFFFFFFFFFFFE, 0x10_0000000000000000), (.shl,   0xFF_FFFFFFFF00000000, 0x11_0000000000000000),
      (.shr,   0xFF_FFFFFFFF00000000, 0x12_0000000000000000), (.shlv,  0xFF_FFFFFFFF00000000, 0x13_0000000000000000),
      (.shrv,  0xFF_FFFFFFFF00000000, 0x14_0000000000000000), (.btst,  0xFF_FFFFFFFF00000000, 0x20_0000000000000000),
      (.run,   0xFF_FFFFFFFFFFFFFFFF, 0x21_0000000000000000), (.rdu,   0xFF_FFFFFFFFFFFFFFFF, 0x30_0000000000000000),
      (.rds,   0xFF_FFFFFFFFFFFFFFFF, 0x31_0000000000000000), (.rdw,   0xFF_FFFFFFFFFFFFFFFF, 0x32_0000000000000000),
      (.rdstr, 0xFF_FFFFFFFFFFFFFFFF, 0x33_0000000000000000)] →
    (∀ r ∈ rows, ∀ cw : CmdWord, (∃ i, decode cw = some i ∧ i.mnemonic = r.1) ↔ cw &&& r.2.1 = r.2.2) ∧
    (∀ r ∈ rows, ∀ r' ∈ rows, ∀ cw : CmdWord, cw &&& r.2.1 = r.2.2 → cw &&& r'.2.1 = r'.2.2 → r = r')

/-- R40, R93: which words are illegal, and that an illegal word is answered `IllegalCommand`, data 0, no characters, `VALUE` unchanged. -/
def Obligations.IllegalWordsAreTheseAndAreAnsweredIllegalCommand : Prop :=
  ∀ cw : CmdWord,
    (decode cw = none ↔
      cw.extractLsb' 64 8 ∉ ([0x01, 0x02, 0x03, 0x04, 0x10, 0x11, 0x12, 0x13, 0x14, 0x20, 0x21, 0x30, 0x31, 0x32, 0x33] : List (BitVec 8)) ∨
      (cw.extractLsb' 64 8 ∈ ([0x01, 0x21, 0x30, 0x31, 0x32, 0x33] : List (BitVec 8)) ∧ cw.extractLsb' 0 64 ≠ 0) ∨
      (cw.extractLsb' 64 8 ∈ ([0x11, 0x12, 0x13, 0x14, 0x20] : List (BitVec 8)) ∧ cw.extractLsb' 32 32 ≠ 0) ∨
      (cw.extractLsb' 64 8 = 0x10 ∧ cw.extractLsb' 1 63 ≠ 0)) ∧
    (decode cw = none → ∀ (s : State) (rest : List HostEvent),
      ∃ t, step (s.given (.command cw [] :: rest)) = .next t ∧ Answered (s.given rest) t s.value 0x03 0 [])

/-- Table R39, words written out from their bits: one of every family decodes to the command it stands for. -/
def Obligations.WordsWrittenOutDecodeToTheirCommands : Prop :=
  decode 0x01_0000000000000000 = some .clr ∧
  decode 0x03_FFFFFFFFFFFFFFFB = some (.lds (BitVec.ofInt 64 (-5))) ∧
  decode 0x10_0000000000000001 = some (.push true) ∧
  decode 0x12_0000000000000008 = some (.shr 8) ∧
  decode 0x20_00000000FFFFFFFF = some (.btst (BitVec.ofInt 32 (-1))) ∧
  decode 0x33_0000000000000000 = some .rdstr ∧
  decode 0x00_0000000000000000 = none

/-! ### The step -/

/-- R25, R42: the step at a pending legal command pair is `exec` of the decoded command, at the state in which the pair's characters are the
input and the later events wait. -/
def Obligations.StepRunsTheDecodedCommand : Prop :=
  ∀ (s : State) (cw : CmdWord) (chars : List Code) (rest : List HostEvent) (i : Instr),
    s.pending = .command cw chars :: rest → decode cw = some i → i.takesInput chars = true →
      step s = exec i { s with pending := rest, input := chars }

/-- R30 (the refusal is the model's choice between the two R30 offers, log 4): a pair whose `S` has the wrong length is refused, beside a
legal and beside an illegal word. -/
def Obligations.StepRefusesAPairWithTheWrongInputLength : Prop :=
  ∀ (s : State) (cw : CmdWord) (chars : List Code) (rest : List HostEvent),
    s.pending = .command cw chars :: rest →
      (∀ i, decode cw = some i → chars.length ≠ (if i.mnemonic = .ldstr then (cw.extractLsb' 0 64).toNat else 0) →
        step s = .refused .notACommand) ∧
      (decode cw = none → chars ≠ [] → step s = .refused .notACommand)

/-- R110: a reset event sets `VALUE` to 0 and produces no response; its effect on `VALUE` is that of `CLR`. -/
def Obligations.ResetEventSetsValueToZero : Prop :=
  State.reset.value = 0 ∧
  ∀ (s : State) (rest : List HostEvent),
    ∃ t u, step (s.given (.reset :: rest)) = .next t ∧ step (s.given (cmd .clr :: rest)) = .next u ∧
      t.value = 0 ∧ u.value = t.value ∧ t.responses = s.responses

/-- The model's choice (log 7, from R103's "between commands it simply holds VALUE"): a step with nothing pending leaves the state alone. -/
def Obligations.StepWithNothingPendingHoldsValue : Prop :=
  ∀ s : State, s.pending = [] → step s = .next s

/-- R19 and Table R16: after reset (State.reset, or a reset event at any state) `VALUE` is 0; and whenever `VALUE` is 0, every reading command
answers `OK`: `RDU`, `RUN`, `BTST` of every legal position, `RDS`, `RDW`, and `SHLV` and `SHRV` of every amount return 0, and `RDSTR` returns
sixty-four `'0'`. (R19 lists the reads but `RDW`, `SHLV` and `SHRV`, which follow from R82, R63 and R64.) -/
def Obligations.AfterResetEveryReadShowsZero : Prop :=
  State.reset.value = 0 ∧
  (∀ s : State, ∃ t, step (s.given [.reset]) = .next t ∧ t.value = 0) ∧
  ∀ (s : State) (rest : List HostEvent), s.value = 0 →
    (∀ i : Instr, i.mnemonic ∈ ([.shlv, .shrv, .btst, .run, .rdu, .rds, .rdw] : List Mnemonic) → (∀ pos, i = .btst pos → pos.toNat ≤ 63) →
      ∃ t, step (s.given (cmd i :: rest)) = .next t ∧ Answered (s.given rest) t 0 0x00 0 []) ∧
    ∃ t, step (s.given (cmd .rdstr :: rest)) = .next t ∧ Answered (s.given rest) t 0 0x00 0 (List.replicate 64 0x30)

/-! ### Construction -/

/-- R50: `CLR` sets `VALUE` to 0 and answers `OK`, data 0. -/
def Obligations.ClrSetsValueToZero : Prop :=
  (∀ arg : Word, decode (0x01#8 ++ arg) = if arg = 0 then some .clr else none) ∧
  ∀ s : State, ∃ t, exec .clr s = .next t ∧ Answered s t 0 0x00 0 []

/-- R51: `LDU u` stores `u` verbatim. -/
def Obligations.LduStoresItsOperand : Prop :=
  (∀ arg : Word, decode (0x02#8 ++ arg) = some (.ldu arg)) ∧
  ∀ (s : State) (u : Word), ∃ t, exec (.ldu u) s = .next t ∧ Answered s t u 0x00 0 []

/-- R52: `LDS i` stores the bit pattern of `i`; read unsigned it is `i` for `i >= 0` and `i + 2^64` for `i < 0`. -/
def Obligations.LdsStoresTheTwosComplementPattern : Prop :=
  (∀ arg : Word, decode (0x03#8 ++ arg) = some (.lds arg)) ∧
  ∀ (s : State) (i : Int), -(2 ^ 63) ≤ i → i < 2 ^ 63 →
    ∃ t v, exec (.lds (BitVec.ofInt 64 i)) s = .next t ∧ Answered s t v 0x00 0 [] ∧
      (v.toNat : Int) = if i < 0 then i + 2 ^ 64 else i

/-- R53, the closed form: bit `k` of the new `VALUE` is 1 exactly when `k < L` and `S[L - 1 - k]` is the code of `'1'`. -/
def Obligations.LdstrParsesItsString : Prop :=
  (∀ arg : Word, decode (0x04#8 ++ arg) = some (.ldstr arg)) ∧
  ∀ (s : State) (len : Word), s.input.length = len.toNat →
    ∃ t v, exec (.ldstr len) s = .next t ∧ Answered s t v 0x00 0 [] ∧
      ∀ k < 64, v.getLsbD k = true ↔ k < s.input.length ∧ s.input[s.input.length - 1 - k]? = some 0x31

/-- R53 (c): "only the last 64 pushes survive": what stands before the last 64 characters has no effect. -/
def Obligations.LdstrKeepsOnlyTheLast64Characters : Prop :=
  ∀ (s : State) (before last : List Code), last.length = 64 → (before ++ last).length < 2 ^ 64 →
    ∃ t u, step (s.given [ldstrCmd (before ++ last)]) = .next t ∧ step (s.given [ldstrCmd last]) = .next u ∧
      t.value = u.value

/-- R54: a legal construction command always ends `OK` with data 0 and no characters, and the value it writes does not depend on the state:
it never reads `VALUE`. -/
def Obligations.ConstructionIsTotalAndNeverReadsValue : Prop :=
  ∀ (cw : CmdWord) (chars : List Code) (i : Instr), decode cw = some i → i.takesInput chars = true →
    i.mnemonic ∈ ([.clr, .ldu, .lds, .ldstr] : List Mnemonic) →
      ∃ v, ∀ (s : State) (rest : List HostEvent),
        ∃ t, step (s.given (.command cw chars :: rest)) = .next t ∧ Answered (s.given rest) t v 0x00 0 []

/-! ### Mutation and shifts -/

/-- R60: `PUSH b` moves every bit up one place, discards bit 63 and puts `b` in bit 0: `(2 * VALUE + b) mod 2^64`. -/
def Obligations.PushShiftsLeftByOneAndInsertsItsBit : Prop :=
  (∀ (hi : BitVec 63) (b : Bool), decode (0x10#8 ++ hi ++ BitVec.ofBool b) = if hi = 0 then some (.push b) else none) ∧
  ∀ (s : State) (b : Bool), ∃ t v, exec (.push b) s = .next t ∧ Answered s t v 0x00 0 [] ∧
    v.toNat = (2 * s.value.toNat + b.toNat) % 2 ^ 64 ∧
    v.getLsbD 0 = b ∧ ∀ k < 63, v.getLsbD (k + 1) = s.value.getLsbD k

/-- R61, with R65: `SHL n` multiplies by `2^n` and drops what leaves the 64 bits, for `n <= 63`; bit by bit the old bit `k - n`, or 0. For
`n >= 64` it gives 0 with status `OK`. -/
def Obligations.ShlShiftsValueLeft : Prop :=
  (∀ hi n : Half, decode (0x11#8 ++ hi ++ n) = if hi = 0 then some (.shl n) else none) ∧
  ∀ (s : State) (n : Half), ∃ t v, exec (.shl n) s = .next t ∧ Answered s t v 0x00 0 [] ∧
    v.toNat = (if n.toNat ≤ 63 then s.value.toNat * 2 ^ n.toNat % 2 ^ 64 else 0) ∧
    ∀ k < 64, v.getLsbD k = (decide (n.toNat ≤ 63 ∧ n.toNat ≤ k) && s.value.getLsbD (k - n.toNat))

/-- R62, with R65: `SHR n` is the logical shift right, `floor(VALUE / 2^n)` for `n <= 63`; bit by bit the old bit `k + n`, or 0. For
`n >= 64` it gives 0 with status `OK`. -/
def Obligations.ShrShiftsValueRight : Prop :=
  (∀ hi n : Half, decode (0x12#8 ++ hi ++ n) = if hi = 0 then some (.shr n) else none) ∧
  ∀ (s : State) (n : Half), ∃ t v, exec (.shr n) s = .next t ∧ Answered s t v 0x00 0 [] ∧
    v.toNat = (if n.toNat ≤ 63 then s.value.toNat / 2 ^ n.toNat else 0) ∧
    ∀ k < 64, v.getLsbD k = (decide (n.toNat ≤ 63 ∧ k + n.toNat ≤ 63) && s.value.getLsbD (k + n.toNat))

/-- R63, R65: `SHLV n` returns the left-shifted value as data and leaves `VALUE` alone. -/
def Obligations.ShlvReturnsTheLeftShiftedValue : Prop :=
  (∀ hi n : Half, decode (0x13#8 ++ hi ++ n) = if hi = 0 then some (.shlv n) else none) ∧
  ∀ (s : State) (n : Half), ∃ t d, exec (.shlv n) s = .next t ∧ Answered s t s.value 0x00 d [] ∧
    d.toNat = (if n.toNat ≤ 63 then s.value.toNat * 2 ^ n.toNat % 2 ^ 64 else 0)

/-- R64, R65: `SHRV n` returns the right-shifted value as data and leaves `VALUE` alone. -/
def Obligations.ShrvReturnsTheRightShiftedValue : Prop :=
  (∀ hi n : Half, decode (0x14#8 ++ hi ++ n) = if hi = 0 then some (.shrv n) else none) ∧
  ∀ (s : State) (n : Half), ∃ t d, exec (.shrv n) s = .next t ∧ Answered s t s.value 0x00 d [] ∧
    d.toNat = (if n.toNat ≤ 63 then s.value.toNat / 2 ^ n.toNat else 0)

/-! ### Queries -/

/-- R70: `BTST pos` with `0 <= pos <= 63` returns the bit at `pos` in `data[0]`, `data[63:1] = 0`; with any other `pos` it answers
`InvalidArgument`, data 0. -/
def Obligations.BtstReturnsTheBitAtALegalPosition : Prop :=
  (∀ hi pos : Half, decode (0x20#8 ++ hi ++ pos) = if hi = 0 then some (.btst pos) else none) ∧
  (∀ (s : State) (pos : Half), 0 ≤ pos.toInt → pos.toInt ≤ 63 →
    ∃ t, exec (.btst pos) s = .next t ∧
      Answered s t s.value 0x00 (if s.value.getLsbD pos.toInt.toNat then 1 else 0) []) ∧
  (∀ (s : State) (pos : Half), pos.toInt < 0 ∨ 63 < pos.toInt →
    ∃ t, exec (.btst pos) s = .next t ∧ Answered s t s.value 0x02 0 [])

/-- R70, R92: `BTST` raises `InvalidArgument` exactly when `pos < 0` or `pos > 63`, that is when `arg[31:0]` read unsigned is 64 or more. -/
def Obligations.BtstRaisesInvalidArgumentExactlyOutsideZeroTo63 : Prop :=
  ∀ (s : State) (pos : Half),
    ((pos.toInt < 0 ∨ pos.toInt > 63) ↔ 64 ≤ pos.toNat) ∧
    ((∃ t, exec (.btst pos) s = .next t ∧ Answered s t s.value 0x02 0 []) ↔ (pos.toInt < 0 ∨ pos.toInt > 63))

/-- R71, R72: `RUN` returns the `k` for which bits 0 to `k - 1` are all set and bit `k` is clear (or `k` is 64); `k` is never above 64. -/
def Obligations.RunCountsTheOnesFromBitZero : Prop :=
  (∀ arg : Word, decode (0x21#8 ++ arg) = if arg = 0 then some .run else none) ∧
  ∀ s : State, ∃ t k, exec .run s = .next t ∧ Answered s t s.value 0x00 (BitVec.ofNat 64 k) [] ∧
    k ≤ 64 ∧ (∀ j < k, s.value.getLsbD j = true) ∧ (k = 64 ∨ s.value.getLsbD k = false)

/-! ### Conversions out -/

/-- R80: `RDU` returns `VALUE`. -/
def Obligations.RduReturnsValue : Prop :=
  (∀ arg : Word, decode (0x30#8 ++ arg) = if arg = 0 then some .rdu else none) ∧
  ∀ s : State, ∃ t, exec .rdu s = .next t ∧ Answered s t s.value 0x00 s.value []

/-- R81: `RDS` returns `VALUE` when it is at most `2^63 - 1`, and read as two's complement the data is then the number `VALUE` is; above it
answers `Overflow`, data 0. -/
def Obligations.RdsReturnsAValueThatFits : Prop :=
  (∀ arg : Word, decode (0x31#8 ++ arg) = if arg = 0 then some .rds else none) ∧
  (∀ s : State, s.value.toNat ≤ 2 ^ 63 - 1 →
    ∃ t d, exec .rds s = .next t ∧ Answered s t s.value 0x00 d [] ∧ d = s.value ∧ d.toInt = (s.value.toNat : Int)) ∧
  (∀ s : State, 2 ^ 63 - 1 < s.value.toNat → ∃ t, exec .rds s = .next t ∧ Answered s t s.value 0x01 0 [])

/-- R81, R91: `RDS` raises `Overflow` exactly when `VALUE > 2^63 - 1`, that is exactly when `VALUE[63] = 1`. -/
def Obligations.RdsRaisesOverflowExactlyWhenBit63IsSet : Prop :=
  ∀ s : State,
    (s.value.toNat > 2 ^ 63 - 1 ↔ s.value.getLsbD 63 = true) ∧
    ((∃ t, exec .rds s = .next t ∧ Answered s t s.value 0x01 0 []) ↔ s.value.getLsbD 63 = true)

/-- R82: `RDW` always succeeds; the data, read as two's complement, is `VALUE[31:0]` read as two's complement. -/
def Obligations.RdwReturnsTheLowHalfSigned : Prop :=
  (∀ arg : Word, decode (0x32#8 ++ arg) = if arg = 0 then some .rdw else none) ∧
  ∀ s : State, ∃ t d, exec .rdw s = .next t ∧ Answered s t s.value 0x00 d [] ∧
    d.toInt = (s.value.extractLsb' 0 32).toInt ∧ d.extractLsb' 0 32 = s.value.extractLsb' 0 32 ∧
    ∀ k, 32 ≤ k → k < 64 → d.getLsbD k = s.value.getLsbD 31

/-- R83, R84: `RDSTR` returns 64 characters, each `'0'` or `'1'`; `T[k]` shows bit `63 - k`; the data is 0. -/
def Obligations.RdstrRendersValueMostSignificantBitFirst : Prop :=
  (∀ arg : Word, decode (0x33#8 ++ arg) = if arg = 0 then some .rdstr else none) ∧
  ∀ s : State, ∃ t chars, exec .rdstr s = .next t ∧ Answered s t s.value 0x00 0 chars ∧
    chars.length = 64 ∧ (∀ c ∈ chars, c = 0x30 ∨ c = 0x31) ∧
    ∀ k < 64, chars[k]? = some (if s.value.getLsbD (63 - k) then 0x31 else 0x30)

/-! ### Whole-machine rules -/

/-- R94: of the fifteen commands only `RDS` and `BTST` can end with an error, each with one error only; every other one always ends `OK` when
its pair is legal. -/
def Obligations.OnlyRdsAndBtstCanFail : Prop :=
  ∀ (i : Instr) (s : State), i.takesInput s.input = true →
    ∃ t v st d chars, exec i s = .next t ∧ Answered s t v st d chars ∧
      (st = 0x00 ∨ (i.mnemonic = .rds ∧ st = 0x01) ∨ (i.mnemonic = .btst ∧ st = 0x02))

/-- R36: every command pair the host may present, legal or not, gets exactly one response, with 64 output characters when the command was
`RDSTR` and none otherwise; and there is no response without a command. -/
def Obligations.EveryCommandGetsExactlyOneResponse : Prop :=
  (∀ (s : State) (cw : CmdWord) (chars : List Code) (rest : List HostEvent),
    (HostEvent.command cw chars).isPaired = true →
      ∃ t v st d out, step (s.given (.command cw chars :: rest)) = .next t ∧ Answered (s.given rest) t v st d out ∧
        out.length = (if decode cw = some .rdstr then 64 else 0)) ∧
  (∀ s t : State, step s = .next t → (∀ cw chars rest, s.pending ≠ .command cw chars :: rest) → t.responses = s.responses)

/-- R116: while the host keeps its duty (R118) no run stops before its events are used up: after `n` steps the first `n` events have been
performed, each command with one response, and the duty still holds of what waits. (That the commands behind a reset are still there to be
performed, and that the responses before it stay, is the model's choice, log 6.) -/
def Obligations.RunsCompleteWhileTheHostKeepsItsDuty : Prop :=
  ∀ (n : Nat) (s : State), s.hostObeys = true → n ≤ s.pending.length →
    ∃ t : State, Host.Core.run Sys2Proof.core n s = .next t ∧ t.hostObeys = true ∧ t.pending = s.pending.drop n ∧
      t.responses.length = s.responses.length + commandCount (s.pending.take n)

/-- R28, R36, R37, R38, R46: every step keeps the invariant: no input character is left over, and every response given is of the spec's
shape. (`input` and `responses` are the model's own fields, logs 2 and 3.) -/
def Obligations.EveryStepKeepsTheInvariant : Prop :=
  ∀ s t : State, s.Inv → step s = .next t → t.Inv

/-- The invariant holds after reset. (The reset values of `input` and `responses` are the model's choice, logs 2 and 3.) -/
def Obligations.InvariantHoldsAfterReset : Prop :=
  State.reset.Inv

/-- R90, R96: whatever the step, a response that is not `OK` comes with data 0, no characters and `VALUE` as before, and each error status has
its one cause: `Overflow` an `RDS` of a value above `2^63 - 1`, `InvalidArgument` a `BTST` outside 0 to 63, `IllegalCommand` an illegal word. -/
def Obligations.ErrorsHaveTheirOneCauseAndChangeNothing : Prop :=
  ∀ (s t : State) (r : Response), step s = .next t → t.responses = s.responses ++ [r] →
    (r.word.extractLsb' 64 8 = 0x00 ∨
      (t.value = s.value ∧ r.word.extractLsb' 0 64 = 0 ∧ r.chars = [] ∧
        ∃ cw chars rest, s.pending = .command cw chars :: rest ∧ t.pending = rest ∧
          ((r.word.extractLsb' 64 8 = 0x01 ∧ decode cw = some .rds ∧ s.value.toNat > 2 ^ 63 - 1) ∨
           (r.word.extractLsb' 64 8 = 0x02 ∧ ∃ pos, decode cw = some (.btst pos) ∧ (pos.toInt < 0 ∨ pos.toInt > 63)) ∨
           (r.word.extractLsb' 64 8 = 0x03 ∧ decode cw = none))))

/-- R16 (Table R16): nothing but reset and the commands `CLR`, `LDU`, `LDS`, `LDSTR`, `PUSH`, `SHL`, `SHR` changes `VALUE`. -/
def Obligations.OnlyResetAndTheWritingCommandsChangeValue : Prop :=
  ∀ s t : State, step s = .next t → t.value ≠ s.value →
    (∃ rest, s.pending = .reset :: rest) ∨
    ∃ cw chars rest i, s.pending = .command cw chars :: rest ∧ decode cw = some i ∧
      i.mnemonic ∈ ([.clr, .ldu, .lds, .ldstr, .push, .shl, .shr] : List Mnemonic)

/-- R122: any number of reading commands and illegal words leave `VALUE` as it was. -/
def Obligations.ReadsAndIllegalWordsDoNotDisturbValue : Prop :=
  ∀ (words : List CmdWord) (s : State),
    (∀ cw ∈ words, decode cw = none ∨ ∃ i, decode cw = some i ∧
      i.mnemonic ∈ ([.shlv, .shrv, .btst, .run, .rdu, .rds, .rdw, .rdstr] : List Mnemonic)) →
      ∃ t : State, Host.Core.run Sys2Proof.core words.length (s.given (words.map fun cw => .command cw [])) = .next t ∧
        t.value = s.value ∧ t.pending = [] ∧ t.responses.length = s.responses.length + words.length

/-- R13, R97: nothing is remembered but `VALUE`: two states with the same `VALUE` and the same events to come run alike, whatever was answered
before in either (errors included). (The model's choices: a step with nothing pending is idle, log 7; a reset leaves the responses already given, log 6.) -/
def Obligations.WhatWasAnsweredBeforeDoesNotMatter : Prop :=
  ∀ (n : Nat) (s₁ s₂ t₁ : State), s₁.value = s₂.value → s₁.pending = s₂.pending →
    Host.Core.run Sys2Proof.core n s₁ = .next t₁ →
      ∃ (t₂ : State) (added : List Response), Host.Core.run Sys2Proof.core n s₂ = .next t₂ ∧ t₂.value = t₁.value ∧
        t₁.responses = s₁.responses ++ added ∧ t₂.responses = s₂.responses ++ added

/-- R25: every event sees what all earlier ones did and nothing of a later one: what the first events do is the same whatever waits behind
them. (That `later` still waits behind a reset among the first events is the model's choice, log 6.) -/
def Obligations.LaterEventsDoNotAffectEarlierOnes : Prop :=
  ∀ (first later : List HostEvent) (s : State), first.all HostEvent.isPaired = true →
    ∃ u : State, Host.Core.run Sys2Proof.core first.length (s.given first) = .next u ∧
      Host.Core.run Sys2Proof.core first.length (s.given (first ++ later)) = .next (u.given later)

/-! ### Laws that tie the commands together -/

/-- R85: after `LDU u`, `RDU` returns `OK` with data `u`. -/
def Obligations.UnsignedRoundTrip : Prop :=
  ∀ (s : State) (u : Word), ∃ (t : State) (r r' : Response),
    Host.Core.run Sys2Proof.core 2 (s.given [cmd (.ldu u), cmd .rdu]) = .next t ∧ t.responses = s.responses ++ [r, r'] ∧
      r'.word.extractLsb' 64 8 = 0x00 ∧ r'.word.extractLsb' 0 64 = u

/-- R15: a copy of a series, made by reading one block with `RDU` and loading another with `LDU`, is exact, and the block read from keeps its
own `VALUE`. -/
def Obligations.CopyFromOneBlockToAnotherIsExact : Prop :=
  ∀ a b : State, ∃ (a' b' : State) (r : Response), step (a.given [cmd .rdu]) = .next a' ∧ a'.responses = a.responses ++ [r] ∧
    step (b.given [cmd (.ldu (r.word.extractLsb' 0 64))]) = .next b' ∧ b'.value = a.value ∧ a'.value = a.value

/-- R86: after `LDS i`, `RDS` returns the pattern of `i` for `i >= 0` and `Overflow`, data 0, for `i < 0`; and a successful `RDS` after `LDU u`
returns `u`, for `u <= 2^63 - 1`. -/
def Obligations.SignedRoundTripIsPartial : Prop :=
  (∀ (s : State) (i : Int), -(2 ^ 63) ≤ i → i < 2 ^ 63 → ∃ (t : State) (r r' : Response),
    Host.Core.run Sys2Proof.core 2 (s.given [cmd (.lds (BitVec.ofInt 64 i)), cmd .rds]) = .next t ∧
      t.responses = s.responses ++ [r, r'] ∧
      r'.word.extractLsb' 64 8 = (if i < 0 then 0x01 else 0x00) ∧
      r'.word.extractLsb' 0 64 = (if i < 0 then 0 else BitVec.ofInt 64 i)) ∧
  (∀ (s : State) (u : Word), u.toNat ≤ 2 ^ 63 - 1 → ∃ (t : State) (r r' : Response),
    Host.Core.run Sys2Proof.core 2 (s.given [cmd (.ldu u), cmd .rds]) = .next t ∧
      t.responses = s.responses ++ [r, r'] ∧ r'.word.extractLsb' 64 8 = 0x00 ∧ r'.word.extractLsb' 0 64 = u)

/-- R87: `SHL n` then `SHR n` leaves `VALUE` with its top `n` bits zeroed (0 for `n >= 64`), and `SHR n` then `SHL n` leaves it with its low `n`
bits zeroed. -/
def Obligations.ShiftDuality : Prop :=
  ∀ (s : State) (n : Half), ∃ t u : State,
    Host.Core.run Sys2Proof.core 2 (s.given [cmd (.shl n), cmd (.shr n)]) = .next t ∧
    Host.Core.run Sys2Proof.core 2 (s.given [cmd (.shr n), cmd (.shl n)]) = .next u ∧
    t.value.toNat = (if n.toNat ≤ 63 then s.value.toNat % 2 ^ (64 - n.toNat) else 0) ∧
    (∀ k < 64, t.value.getLsbD k = (decide (k + n.toNat ≤ 63) && s.value.getLsbD k)) ∧
    (∀ k < 64, u.value.getLsbD k = (decide (n.toNat ≤ k) && s.value.getLsbD k))

/-- R88: `LDSTR` of the string `RDSTR` returned restores the `VALUE` it was rendered from, whatever `VALUE` is when it is loaded; and `RDSTR`
after `LDSTR S` returns `S` exactly when `S` has 64 characters, each `'0'` or `'1'`. -/
def Obligations.StringRoundTrip : Prop :=
  (∀ s u : State, ∃ (t w : State) (r : Response), step (s.given [cmd .rdstr]) = .next t ∧ t.responses = s.responses ++ [r] ∧
    step (u.given [.command (encode (.ldstr 64)) r.chars]) = .next w ∧ w.value = s.value) ∧
  (∀ (s : State) (str : List Code), str.length < 2 ^ 64 → ∃ (t : State) (r r' : Response),
    Host.Core.run Sys2Proof.core 2 (s.given [ldstrCmd str, cmd .rdstr]) = .next t ∧ t.responses = s.responses ++ [r, r'] ∧
      (r'.chars = str ↔ str.length = 64 ∧ ∀ c ∈ str, c = 0x30 ∨ c = 0x31))

/-- R89: for every `VALUE` and every `i` from 0 to 63, `BTST i` returns 1 exactly when `T[63 - i]` of `RDSTR` is `'1'`. -/
def Obligations.BitTestAgreesWithTheString : Prop :=
  ∀ (s : State) (i : Half), i.toNat ≤ 63 → ∃ (t : State) (r r' : Response),
    Host.Core.run Sys2Proof.core 2 (s.given [cmd (.btst i), cmd .rdstr]) = .next t ∧ t.responses = s.responses ++ [r, r'] ∧
      r.word.extractLsb' 64 8 = 0x00 ∧ (r.word.extractLsb' 0 64 = 1 ↔ r'.chars[63 - i.toNat]? = some 0x31)

/-- R120: the data of `SHLV n` is the `VALUE` that `SHL n` leaves, likewise `SHRV` and `SHR`, and after `SHLV` or `SHRV` `VALUE` is as before. -/
def Obligations.OperatorFormsAgreeWithMutatingForms : Prop :=
  ∀ (s : State) (n : Half), ∃ (l lv r rv : State) (a b : Response),
    step (s.given [cmd (.shl n)]) = .next l ∧ step (s.given [cmd (.shlv n)]) = .next lv ∧
    step (s.given [cmd (.shr n)]) = .next r ∧ step (s.given [cmd (.shrv n)]) = .next rv ∧
    lv.responses = s.responses ++ [a] ∧ rv.responses = s.responses ++ [b] ∧
    a.word.extractLsb' 0 64 = l.value ∧ b.word.extractLsb' 0 64 = r.value ∧ lv.value = s.value ∧ rv.value = s.value

/-- R61: `SHL n` has the same effect on `VALUE` as `n` times `PUSH 0`, for every `n`, 64 and above included. -/
def Obligations.ShlIsRepeatedPushOfZero : Prop :=
  ∀ (s : State) (n : Half), ∃ t u : State,
    step (s.given [cmd (.shl n)]) = .next t ∧
    Host.Core.run Sys2Proof.core n.toNat (s.given (List.replicate n.toNat (cmd (.push false)))) = .next u ∧ t.value = u.value

/-- R123: `PUSH b1` to `PUSH bk` leave `(VALUE * 2^k + b1 * 2^(k-1) + ... + bk) mod 2^64`; after 64 or more the old `VALUE` has no effect. -/
def Obligations.PushesCompose : Prop :=
  ∀ (s : State) (bits : List Bool), ∃ t : State,
    Host.Core.run Sys2Proof.core bits.length (s.given (bits.map fun b => cmd (.push b))) = .next t ∧
    t.value.toNat = (s.value.toNat * 2 ^ bits.length + bits.foldl (fun a b => 2 * a + b.toNat) 0) % 2 ^ 64 ∧
    (64 ≤ bits.length → t.value.toNat = (bits.drop (bits.length - 64)).foldl (fun a b => 2 * a + b.toNat) 0)

/-- R123: `LDSTR` with the string `S` leaves the `VALUE` that `CLR` and then one `PUSH (S[j] = '1')` for each character in order leave. -/
def Obligations.LdstrIsClrThenOnePushForEachCharacter : Prop :=
  ∀ (s : State) (str : List Code), str.length < 2 ^ 64 → ∃ t u : State,
    step (s.given [ldstrCmd str]) = .next t ∧
    Host.Core.run Sys2Proof.core (str.length + 1) (s.given (cmd .clr :: str.map fun c => cmd (.push (c == 0x31)))) = .next u ∧
    t.value = u.value

/-- R123, R71: after any pushes that end with `PUSH 0` and then exactly `j` times `PUSH 1`, `RUN` returns `j` for `j <= 63`; after 64 or more
`PUSH 1` it returns 64. -/
def Obligations.RunAfterPushesIsTheCurrentStreak : Prop :=
  ∀ (s : State) (bits : List Bool) (j : Nat), ∃ (t u : State) (r r' : Response) (before before' : List Response),
    Host.Core.run Sys2Proof.core (bits.length + 1 + j + 1)
      (s.given ((bits ++ [false] ++ List.replicate j true).map (fun b => cmd (.push b)) ++ [cmd .run])) = .next t ∧
    t.responses = before ++ [r] ∧ r.word.extractLsb' 64 8 = 0x00 ∧ r.word.extractLsb' 0 64 = BitVec.ofNat 64 (min j 64) ∧
    Host.Core.run Sys2Proof.core (bits.length + (64 + j) + 1)
      (s.given ((bits ++ List.replicate (64 + j) true).map (fun b => cmd (.push b)) ++ [cmd .run])) = .next u ∧
    u.responses = before' ++ [r'] ∧ r'.word.extractLsb' 64 8 = 0x00 ∧ r'.word.extractLsb' 0 64 = 64

/-! ### The assembler -/

/-- R44: what the assembler yields. A line it accepts, other than `.word`, is a command pair whose word is legal and decodes to the line's own
command with the line's own operand, with the codes of the line's text as its input characters (`AsmLine.standsFor`; R30 holds of the pair);
every line that stands for a command is accepted as that command's pair, so only an operand outside its range is refused; and `.word` yields
its own 72 bits. (That a text with a character outside ASCII is refused is the model's choice, log 8.) -/
def Obligations.AssembledLinesAreLegalCommands : Prop :=
  (∀ (a : AsmLine) (e : HostEvent), assemble a = some e → (∀ w, a ≠ .word w) →
    ∃ cw chars i, e = .command cw chars ∧ decode cw = some i ∧ i.takesInput chars = true ∧ a.standsFor i chars) ∧
  (∀ (a : AsmLine) (i : Instr) (chars : List Code), a.standsFor i chars → assemble a = some (.command (encode i) chars)) ∧
  ∀ (w : Nat) (e : HostEvent), assemble (.word w) = some e ↔ ∃ cw : CmdWord, cw.toNat = w ∧ e = .command cw []

/-- R45: `LDMIN` and `LDMAX` load the constants `BS_MIN` = 0 and `BS_MAX` = 2^64 - 1; `LDMIN` and `CLR` have the same effect on `VALUE` and the same response,
and are different words. -/
def Obligations.PseudoInstructionsLoadTheConstants : Prop :=
  assemble .ldmin = some (.command 0x02_0000000000000000 []) ∧
  assemble .ldmax = some (.command 0x02_FFFFFFFFFFFFFFFF []) ∧
  encode .clr ≠ 0x02_0000000000000000 ∧
  ∀ s : State, ∃ t u,
    step (s.given [.command 0x02_0000000000000000 []]) = .next t ∧ step (s.given [cmd .clr]) = .next t ∧ t.value = 0 ∧
    step (s.given [.command 0x02_FFFFFFFFFFFFFFFF []]) = .next u ∧ u.value.toNat = 2 ^ 64 - 1
end

