-- ==== Sys2Proof/Laws/PerInstr.lean ====
section
/-!
SUPPORT. Facts about every instruction as syntax, one lemma a constructor. `EncodeMatchesRow`: the word of an instruction carries its row's
opcode and has the row's reserved bits 0, that is `CW & mask = match` (spec/30_encoding.md R39, R40).
-/

namespace Sys2Proof.Laws

/-- Form W (R32): a zero-extended operand has no reserved bit. -/
theorem reserved_word (n : Half) : n.setWidth 64 &&& 0xFFFFFFFF00000000#64 = 0 := by
  have hm : (0xFFFFFFFF00000000#64 : BitVec 64) = BitVec.allOnes 64 <<< 32 := by decide
  rw [hm]
  apply BitVec.eq_of_getLsbD_eq
  intro k hk
  simp only [BitVec.getLsbD_and, BitVec.getLsbD_setWidth, BitVec.getLsbD_shiftLeft]
  rcases Nat.lt_or_ge k 32 with h | h
  · simp [h]
  · simp [BitVec.getLsbD_of_ge n k h]

/-- Form B (R32): a bit has no reserved bit. -/
theorem reserved_bit (b : Bool) : (BitVec.ofBool b).setWidth 64 &&& 0xFFFFFFFFFFFFFFFE#64 = 0 := by
  cases b <;> decide

/-- A word and a mask, each its 8 bits of `op` above its 64 bits of `arg`. -/
theorem and_opField_argField (op m : BitVec 8) (arg k : Word) :
    ((op ++ arg : CmdWord) &&& (m ++ k : CmdWord)) = ((op &&& m) ++ (arg &&& k) : CmdWord) :=
  BitVec.and_append

end Sys2Proof.Laws

namespace Sys2Proof.Laws.EncodeMatchesRow

/-- The word of `i` is covered by the row of its mnemonic, and the row stands in the opcode map. -/
def Statement (i : Instr) : Prop :=
  ∃ r ∈ opcodeTable, r.mnemonic = i.mnemonic ∧ r.op = opcode i.mnemonic ∧ encode i &&& r.mask = r.pattern

/-- Row `k` of the map covers `i` when it is the row of its mnemonic and the operand field has no bit of `reserved`, the `arg` bits of the
row's mask. -/
theorem of_row (i : Instr) (k : Nat) (reserved : Word) {r : Row} (hr : opcodeTable[k]? = some r) (hm : r.mnemonic = i.mnemonic)
    (ho : r.op = opcode i.mnemonic) (hk : r.mask = (0xFF#8 ++ reserved : CmdWord))
    (hp : r.pattern = (r.op ++ 0#64 : CmdWord)) (h : operandField i &&& reserved = 0) : Statement i := by
  refine ⟨r, List.mem_of_getElem? hr, hm, ho, ?_⟩
  rw [hk, hp, ho]
  refine (and_opField_argField (opcode i.mnemonic) 0xFF (operandField i) reserved).trans ?_
  have hop : opcode i.mnemonic &&& 0xFF = opcode i.mnemonic := BitVec.and_allOnes
  rw [h, hop]
  rfl

theorem clr : Statement .clr := of_row _ 0 (BitVec.allOnes 64) rfl rfl rfl rfl rfl rfl
theorem ldu (u : Word) : Statement (.ldu u) := of_row _ 1 0 rfl rfl rfl rfl rfl BitVec.and_zero
theorem lds (i : Word) : Statement (.lds i) := of_row _ 2 0 rfl rfl rfl rfl rfl BitVec.and_zero
theorem ldstr (len : Word) : Statement (.ldstr len) := of_row _ 3 0 rfl rfl rfl rfl rfl BitVec.and_zero
theorem push (b : Bool) : Statement (.push b) := of_row _ 4 0xFFFFFFFFFFFFFFFE rfl rfl rfl rfl rfl (reserved_bit b)
theorem shl (n : Half) : Statement (.shl n) := of_row _ 5 0xFFFFFFFF00000000 rfl rfl rfl rfl rfl (reserved_word n)
theorem shr (n : Half) : Statement (.shr n) := of_row _ 6 0xFFFFFFFF00000000 rfl rfl rfl rfl rfl (reserved_word n)
theorem shlv (n : Half) : Statement (.shlv n) := of_row _ 7 0xFFFFFFFF00000000 rfl rfl rfl rfl rfl (reserved_word n)
theorem shrv (n : Half) : Statement (.shrv n) := of_row _ 8 0xFFFFFFFF00000000 rfl rfl rfl rfl rfl (reserved_word n)
theorem btst (pos : Half) : Statement (.btst pos) := of_row _ 9 0xFFFFFFFF00000000 rfl rfl rfl rfl rfl (reserved_word pos)
theorem run : Statement .run := of_row _ 10 (BitVec.allOnes 64) rfl rfl rfl rfl rfl rfl
theorem rdu : Statement .rdu := of_row _ 11 (BitVec.allOnes 64) rfl rfl rfl rfl rfl rfl
theorem rds : Statement .rds := of_row _ 12 (BitVec.allOnes 64) rfl rfl rfl rfl rfl rfl
theorem rdw : Statement .rdw := of_row _ 13 (BitVec.allOnes 64) rfl rfl rfl rfl rfl rfl
theorem rdstr : Statement .rdstr := of_row _ 14 (BitVec.allOnes 64) rfl rfl rfl rfl rfl rfl

end Sys2Proof.Laws.EncodeMatchesRow
end

