-- ==== Sys2Proof/Laws/Decode.lean ====
section
/-!
SUPPORT. A command word seen as its two fields: the fields of `op ++ arg`, every word is `op ++ arg`, and what `decode` does on `op ++ arg`.
-/

namespace Sys2Proof

@[simp] theorem opField_append (op : BitVec 8) (arg : Word) : opField (op ++ arg) = op := BitVec.extractLsb'_append_eq_left

@[simp] theorem argField_append (op : BitVec 8) (arg : Word) : argField (op ++ arg) = arg := BitVec.extractLsb'_append_eq_right

theorem opField_append_argField (cw : CmdWord) : (opField cw ++ argField cw : CmdWord) = cw := by
  apply BitVec.eq_of_getLsbD_eq
  intro k hk
  have h := BitVec.getLsbD_append (x := opField cw) (y := argField cw) (i := k)
  refine h.trans ?_
  unfold opField argField
  simp only [BitVec.getLsbD_extractLsb']
  split
  · simp [*]
  · simp [show k - 64 < 8 by omega, show 64 + (k - 64) = k by omega]

/-- A row covers a word exactly when the word has the row's opcode and none of the row's reserved bits, whatever the row of the map. -/
theorem covers_append (r : Row) (op : BitVec 8) (arg reserved : Word) (hk : r.mask = (0xFF#8 ++ reserved : CmdWord))
    (hp : r.pattern = (r.op ++ 0#64 : CmdWord)) : r.covers (op ++ arg) = (op == r.op && arg &&& reserved == 0) := by
  have h : (op ++ arg : CmdWord) &&& r.mask = (op ++ (arg &&& reserved) : CmdWord) := by
    rw [hk]
    refine (Laws.and_opField_argField op 0xFF arg reserved).trans ?_
    have : op &&& 0xFF = op := BitVec.and_allOnes
    rw [this]
  unfold Row.covers
  rw [h, hp, Bool.eq_iff_iff]
  simp only [beq_iff_eq, Bool.and_eq_true]
  constructor
  · intro e
    have h₁ := congrArg opField e
    have h₂ := congrArg argField e
    rw [opField_append, opField_append] at h₁
    rw [argField_append, argField_append] at h₂
    exact ⟨h₁, h₂⟩
  · rintro ⟨rfl, e⟩
    rw [e]
    rfl

/-- What the decoder does on a word given as its fields. -/
theorem decode_append (op : BitVec 8) (arg : Word) :
    decode (op ++ arg) = (opcodeTable.find? (fun r => r.op == op)).bind fun r =>
      if r.covers (op ++ arg) then some (instrOf r.mnemonic arg) else none := by
  unfold decode rowOf
  rw [opField_append, argField_append]
  cases opcodeTable.find? (fun r => r.op == op) <;> rfl

/-- What the decoder does on the words of one opcode of the map: legal exactly when no reserved bit is set. -/
theorem decode_append_of_row (op : BitVec 8) (arg reserved : Word) {r : Row} (hr : opcodeTable.find? (fun r => r.op == op) = some r)
    (ho : r.op = op) (hk : r.mask = (0xFF#8 ++ reserved : CmdWord)) (hp : r.pattern = (r.op ++ 0#64 : CmdWord)) :
    decode (op ++ arg) = if arg &&& reserved = 0 then some (instrOf r.mnemonic arg) else none := by
  rw [decode_append, hr, Option.bind_some, covers_append r op arg reserved hk hp]
  simp [ho]

end Sys2Proof
end

