-- ==== Sys2Proof/Laws/Functions.lean ====
section
/-!
SUPPORT. One lemma for each function on values and strings: what it computes, arithmetically and bit by bit, so that no later proof
unfolds it; and the two fields of a response word.
-/

namespace Sys2Proof.Machine

theorem shl64_eq_shiftLeft (v : Word) (n : Nat) : shl64 v n = v <<< n := by
  unfold shl64 Config.shiftLimit
  split
  · apply BitVec.eq_of_toNat_eq
    simp [BitVec.toNat_shiftLeft, Nat.shiftLeft_eq]
  · rw [BitVec.shiftLeft_eq_zero (by omega)]; rfl

theorem shr64_eq_ushiftRight (v : Word) (n : Nat) : shr64 v n = v >>> n := by
  unfold shr64 Config.shiftLimit
  apply BitVec.eq_of_toNat_eq
  split
  · have := v.isLt
    simp only [BitVec.toNat_ofNat, BitVec.toNat_ushiftRight, Nat.shiftRight_eq_div_pow]
    exact Nat.mod_eq_of_lt (lt_of_le_of_lt (Nat.div_le_self _ _) this)
  · have : v >>> n = 0#64 := BitVec.ushiftRight_eq_zero (by omega)
    rw [this]; rfl

theorem getLsbD_push1 (v : Word) (b : Bool) (k : Nat) :
    (push1 v b).getLsbD k = if k = 0 then b else (decide (k < 64) && v.getLsbD (k - 1)) := by
  unfold push1
  rw [BitVec.getLsbD_concat]
  rcases Nat.eq_zero_or_pos k with rfl | hk
  · simp
  · have : k ≠ 0 := by omega
    simp only [this, if_false, BitVec.getLsbD_extractLsb', Nat.zero_add]
    congr 1
    simp; omega

theorem toNat_push1 (v : Word) (b : Bool) : (push1 v b).toNat = (2 * v.toNat + b.toNat) % 2 ^ 64 := by
  unfold push1
  rw [BitVec.toNat_concat, BitVec.extractLsb'_toNat]
  have : b.toNat < 2 := by cases b <;> simp
  simp only [Nat.shiftRight_zero]
  omega

/-- The loop of R71 stops at the first clear bit at or after `k`, or when its fuel is spent. -/
theorem onesRunFrom_spec (v : Word) (fuel k : Nat) :
    k ≤ onesRunFrom v fuel k ∧ onesRunFrom v fuel k ≤ k + fuel ∧
      (∀ j, k ≤ j → j < onesRunFrom v fuel k → v.getLsbD j = true) ∧
      (onesRunFrom v fuel k = k + fuel ∨ v.getLsbD (onesRunFrom v fuel k) = false) := by
  induction fuel generalizing k with
  | zero => simp only [onesRunFrom]; exact ⟨le_rfl, le_rfl, fun j h h' => absurd h' (by omega), Or.inl rfl⟩
  | succ f ih =>
    obtain ⟨h₁, h₂, h₃, h₄⟩ := ih (k + 1)
    by_cases hk : v.getLsbD k = true
    · simp only [onesRunFrom, hk, if_true]
      refine ⟨by omega, by omega, fun j hj hj' => ?_, ?_⟩
      · rcases Nat.lt_or_ge k j with h | h
        · exact h₃ j h hj'
        · rw [show j = k by omega]; exact hk
      · rcases h₄ with h | h
        · left; omega
        · right; exact h
    · have h : onesRunFrom v (f + 1) k = k := by simp [onesRunFrom, hk]
      rw [h]
      exact ⟨le_rfl, by omega, fun j h h' => absurd h' (by omega), Or.inr (by simpa using hk)⟩

/-- Pushing the characters of `s` one after another: bit `k` comes from the `k`-th character from the end, or, above them, from the old
value moved up. -/
theorem getLsbD_foldl_push1 (s : List Code) (v : Word) (k : Nat) (hk : k < 64) :
    (s.foldl (fun v c => push1 v (c == Config.ch1)) v).getLsbD k =
      if k < s.length then (s[s.length - 1 - k]? == some Config.ch1) else v.getLsbD (k - s.length) := by
  induction s generalizing v with
  | nil => simp
  | cons c s ih =>
    simp only [List.foldl_cons, List.length_cons]
    rw [ih]
    rcases Nat.lt_trichotomy k s.length with h | h | h
    · rw [if_pos h, if_pos (by omega), show s.length + 1 - 1 - k = (s.length - 1 - k) + 1 by omega, List.getElem?_cons_succ]
    · subst h
      rw [if_neg (by omega), if_pos (by omega), getLsbD_push1, if_pos (by omega)]
      simp
    · rw [if_neg (by omega), if_neg (by omega), getLsbD_push1, if_neg (by omega)]
      simp only [show k - s.length - 1 = k - (s.length + 1) by omega]
      simp; omega

/-- R53, the closed form: the padding changes nothing. -/
theorem getLsbD_parseString (s : List Code) (k : Nat) (hk : k < 64) :
    (parseString s).getLsbD k = (decide (k < s.length) && (s[s.length - 1 - k]? == some Config.ch1)) := by
  unfold parseString
  rw [getLsbD_foldl_push1 _ _ _ hk]
  unfold padLeft Config.strLen
  split
  · rename_i h
    rw [if_pos (by simp; omega)]
    simp only [List.length_append, List.length_replicate]
    rcases Nat.lt_or_ge k s.length with h' | h'
    · rw [List.getElem?_append_right (by simp; omega)]
      simp only [List.length_replicate, h', decide_true, Bool.true_and]
      rw [show 64 - s.length + s.length - 1 - k - (64 - s.length) = s.length - 1 - k by omega]
    · rw [List.getElem?_append_left (by simp; omega), List.getElem?_replicate, if_pos (by omega)]
      simp [show ¬ k < s.length by omega, Config.ch0, Config.ch1]
  · rename_i h
    rw [if_pos (by omega)]
    simp [show k < s.length by omega]

@[simp] theorem length_renderString (v : Word) : (renderString v).length = 64 := by
  simp [renderString, Config.strLen]

theorem getElem?_renderString (v : Word) (k : Nat) (hk : k < 64) :
    (renderString v)[k]? = some (charOfBit (v.getLsbD (63 - k))) := by
  simp [renderString, Config.strLen, List.getElem?_range hk]

theorem mem_renderString (v : Word) (c : Code) (h : c ∈ renderString v) : c = Config.ch0 ∨ c = Config.ch1 := by
  simp only [renderString, List.mem_map] at h
  obtain ⟨k, -, rfl⟩ := h
  unfold charOfBit
  split
  · exact Or.inr rfl
  · exact Or.inl rfl

@[simp] theorem responseWord_status (st : Status) (d : Word) : (responseWord st d).extractLsb' 64 8 = st.code :=
  BitVec.extractLsb'_append_eq_left

@[simp] theorem responseWord_data (st : Status) (d : Word) : (responseWord st d).extractLsb' 0 64 = d :=
  BitVec.extractLsb'_append_eq_right

@[simp] theorem Response.status_mk (st : Status) (d : Word) (cs : List Code) :
    Response.status ⟨responseWord st d, cs⟩ = st.code := responseWord_status st d

@[simp] theorem Response.data_mk (st : Status) (d : Word) (cs : List Code) :
    Response.data ⟨responseWord st d, cs⟩ = d := responseWord_data st d

theorem Status.ofCode_code (st : Status) : Status.ofCode st.code = some st := by
  cases st <;> rfl

end Sys2Proof.Machine
end

