-- ==== Sys2Proof/Laws/State.lean ====
section
/-!
SUPPORT. What each update of the state does to each field: one lemma a field, true by `rfl`, so that no later proof unfolds a record
update.
-/

namespace Sys2Proof.Machine

@[simp] theorem State.setValue_value (s : State) (v : Word) : (s.setValue v).value = v := rfl
@[simp] theorem State.setValue_pending (s : State) (v : Word) : (s.setValue v).pending = s.pending := rfl
@[simp] theorem State.setValue_input (s : State) (v : Word) : (s.setValue v).input = s.input := rfl
@[simp] theorem State.setValue_responses (s : State) (v : Word) : (s.setValue v).responses = s.responses := rfl

@[simp] theorem State.respond_value (s : State) (st : Status) (d : Word) (cs : List Code) :
    (s.respond st d cs).value = s.value := rfl
@[simp] theorem State.respond_pending (s : State) (st : Status) (d : Word) (cs : List Code) :
    (s.respond st d cs).pending = s.pending := rfl
@[simp] theorem State.respond_input (s : State) (st : Status) (d : Word) (cs : List Code) :
    (s.respond st d cs).input = [] := rfl
@[simp] theorem State.respond_responses (s : State) (st : Status) (d : Word) (cs : List Code) :
    (s.respond st d cs).responses = s.responses ++ [⟨responseWord st d, cs⟩] := rfl

@[simp] theorem State.applyReset_value (s : State) (rest : List HostEvent) : (s.applyReset rest).value = 0 := rfl
@[simp] theorem State.applyReset_pending (s : State) (rest : List HostEvent) : (s.applyReset rest).pending = rest := rfl
@[simp] theorem State.applyReset_input (s : State) (rest : List HostEvent) : (s.applyReset rest).input = s.input := rfl
@[simp] theorem State.applyReset_responses (s : State) (rest : List HostEvent) :
    (s.applyReset rest).responses = s.responses := rfl

@[simp] theorem State.present_value (s : State) (cs : List Code) (rest : List HostEvent) :
    (s.present cs rest).value = s.value := rfl
@[simp] theorem State.present_pending (s : State) (cs : List Code) (rest : List HostEvent) :
    (s.present cs rest).pending = rest := rfl
@[simp] theorem State.present_input (s : State) (cs : List Code) (rest : List HostEvent) :
    (s.present cs rest).input = cs := rfl
@[simp] theorem State.present_responses (s : State) (cs : List Code) (rest : List HostEvent) :
    (s.present cs rest).responses = s.responses := rfl

@[simp] theorem State.given_value (s : State) (es : List HostEvent) : (s.given es).value = s.value := rfl
@[simp] theorem State.given_pending (s : State) (es : List HostEvent) : (s.given es).pending = es := rfl
@[simp] theorem State.given_input (s : State) (es : List HostEvent) : (s.given es).input = s.input := rfl
@[simp] theorem State.given_responses (s : State) (es : List HostEvent) : (s.given es).responses = s.responses := rfl

@[simp] theorem State.reset_value : State.reset.value = 0 := rfl
@[simp] theorem State.reset_pending : State.reset.pending = [] := rfl
@[simp] theorem State.reset_input : State.reset.input = [] := rfl
@[simp] theorem State.reset_responses : State.reset.responses = [] := rfl

end Sys2Proof.Machine
end

