-- ==== Sys2Proof/Laws/Ops.lean ====
section
/-!
SUPPORT. One lemma for each shared operation, saying everything it can do; the inversion of `exec` (every instruction answers one response
and keeps what waits) and of `step`.
-/

namespace Sys2Proof.Machine

theorem respond_answered (s : State) (v : Word) (st : Status) (d : Word) (cs : List Code) :
    Answered s ((s.setValue v).respond st d cs) v st.code d cs :=
  ⟨rfl, rfl, rfl, _, rfl, responseWord_status st d, responseWord_data st d, rfl⟩

/-- `ok()` after a write of `VALUE`: the one way a writing command ends. -/
theorem ok_setValue_iff (s t : State) (v : Word) :
    ok (s.setValue v) = .next t ↔ t = (s.setValue v).respond .ok 0 [] := by
  simp only [ok, Host.Outcome.next.injEq]; exact eq_comm

theorem okData_iff (s t : State) (d : Word) : okData d s = .next t ↔ t = s.respond .ok d [] := by
  simp only [okData, Host.Outcome.next.injEq]; exact eq_comm

theorem okString_iff (s t : State) (cs : List Code) : okString cs s = .next t ↔ t = s.respond .ok 0 cs := by
  simp only [okString, Host.Outcome.next.injEq]; exact eq_comm

theorem raise_iff (s t : State) (st : Status) : raise st s = .next t ↔ t = s.respond st 0 [] := by
  simp only [raise, Host.Outcome.next.injEq]; exact eq_comm

theorem idle_iff (s t : State) : idle s = .next t ↔ t = s := by
  simp only [idle, Host.Outcome.next.injEq]; exact eq_comm

/-- What a step can do, guards included. -/
theorem step_cases {s t : State} (h : step s = .next t) :
    (s.pending = [] ∧ t = s) ∨
    (∃ rest, s.pending = .reset :: rest ∧ t = s.applyReset rest) ∨
    (∃ cw cs rest, s.pending = .command cw cs :: rest ∧
      ((∃ i, decode cw = some i ∧ i.takesInput cs = true ∧ exec i (s.present cs rest) = .next t) ∨
       (decode cw = none ∧ cs = [] ∧ t = (s.present cs rest).respond .illegalCommand 0 []))) := by
  unfold step at h
  split at h
  · next hp => exact Or.inl ⟨hp, (idle_iff _ _).1 h⟩
  · next rest hp => exact Or.inr (Or.inl ⟨rest, hp, by simpa using h.symm⟩)
  · next cw cs rest hp =>
    refine Or.inr (Or.inr ⟨cw, cs, rest, hp, ?_⟩)
    unfold performCommand at h
    split at h
    · next i hd =>
      split at h
      · next ht => exact Or.inl ⟨i, hd, ht, h⟩
      · cases h
    · next hd =>
      split at h
      · next he => exact Or.inr ⟨hd, by simpa using he, (raise_iff _ _ _).1 h⟩
      · cases h

end Sys2Proof.Machine
end

