-- ==== Sys2Proof/Laws/Run.lean ====
section
/-!
SUPPORT. Runs of the machine: one step peeled off, and a run cut in two; and the host's duty on a presented command.
-/

namespace Sys2Proof.Machine

theorem run_next {s t : State} (h : step s = .next t) (n : Nat) :
    Host.Core.run Sys2Proof.core (n + 1) s = Host.Core.run Sys2Proof.core n t := by
  have h' : Sys2Proof.core.step s = .next t := h
  simp only [Host.Core.run, h']

theorem run_refused {s : State} {r : Refusal} (h : step s = .refused r) (n : Nat) :
    Host.Core.run Sys2Proof.core (n + 1) s = .refused r := by
  have h' : Sys2Proof.core.step s = .refused r := h
  simp only [Host.Core.run, h']

/-- A run of `n + 1` steps that ends in a state goes through a first step. -/
theorem run_succ_cases {n : Nat} {s t : State} (h : Host.Core.run Sys2Proof.core (n + 1) s = .next t) :
    ∃ u, step s = .next u ∧ Host.Core.run Sys2Proof.core n u = .next t := by
  cases hs : step s with
  | next u => exact ⟨u, rfl, by rw [← run_next hs]; exact h⟩
  | fault r => cases r
  | refused r => rw [run_refused hs] at h; cases h

theorem run_add {n : Nat} {s t : State} (h : Host.Core.run Sys2Proof.core n s = .next t) (m : Nat) :
    Host.Core.run Sys2Proof.core (n + m) s = Host.Core.run Sys2Proof.core m t := by
  induction n generalizing s with
  | zero => cases h; simp
  | succ n ih =>
    obtain ⟨u, hs, hu⟩ := run_succ_cases h
    rw [show n + 1 + m = (n + m) + 1 by omega, run_next hs]
    exact ih hu

theorem isPaired_of_decode_some {cw : CmdWord} {i : Instr} (h : decode cw = some i) (chars : List Code) :
    (HostEvent.command cw chars).isPaired = i.takesInput chars := by
  simp only [HostEvent.isPaired, h]

theorem isPaired_of_decode_none {cw : CmdWord} (h : decode cw = none) (chars : List Code) :
    (HostEvent.command cw chars).isPaired = chars.isEmpty := by
  simp only [HostEvent.isPaired, h]

end Sys2Proof.Machine
end

