-- ==== Sys2Proof/Tests/Slice0.lean ====
section
/-!
SUPPORT. The model's own tests, each about one step or one word. Expected results are the worked examples and vectors of
spec/95_test_vectors.md (row ids in the comments) or the examples of the rule named; none is the model's own answer. At the end, the
witnesses: states and operands that meet the hypotheses of the statements in Certificates/Slice0/Obligations.lean.
-/

namespace Sys2Proof.Tests

open Sys2Proof.Machine

/-- The block holding `v`, nothing pending, nothing answered. -/
def holding (v : Word) : State := { State.reset with value := v }

/-- `VALUE` after a step that answers a next state. -/
def valueOf : Result → Option Word
  | .next s => some s.value
  | .fault _ => none
  | .refused _ => none

/-- The status, data and characters of the one response of a step. -/
def answerOf : Result → Option (BitVec 8 × Word × List Code)
  | .next s => s.responses.getLast?.map fun r => (r.status, r.data, r.chars)
  | .fault _ => none
  | .refused _ => none

/-- `VALUE` and the response after the command `i` at `VALUE = v`. -/
def run1 (v : Word) (i : Instr) : Option Word × Option (BitVec 8 × Word × List Code) :=
  (valueOf (exec i (holding v)), answerOf (exec i (holding v)))

/-- `VALUE` and the response after one step at `VALUE = v` with the command word `cw` and the characters `chars` presented. -/
def runWord (v : Word) (cw : CmdWord) (chars : List Code) : Option Word × Option (BitVec 8 × Word × List Code) :=
  let r := step ((holding v).given [.command cw chars])
  (valueOf r, answerOf r)

/-- Whether a step is refused because the pair is no command. -/
def refusedPair : Result → Bool
  | .refused .notACommand => true
  | .refused (.notModelled _) => false
  | .next _ => false
  | .fault _ => false

/-! ### The opcode map and the decoder (30_encoding.md R39, R40; 95_test_vectors.md words) -/

theorem test_table_has_the_opcodes : opcodeTable.map (fun r => (r.mnemonic, r.op)) =
    opcodeTable.map (fun r => (r.mnemonic, opcode r.mnemonic)) := by decide

theorem test_table_masks_are_op_and_reserved_bits : opcodeTable.all (fun r => r.mask ==
    (0xFF#8 ++ (match r.form with | .n => 0xFFFFFFFFFFFFFFFF#64 | .q => 0#64 | .w => 0xFFFFFFFF00000000#64 | .b => 0xFFFFFFFFFFFFFFFE#64) : CmdWord)) =
    true := by decide

theorem test_decode_clr : decode 0x01_0000000000000000 = some .clr := by decide
theorem test_decode_ldu : decode 0x02_00000052C1AA9529 = some (.ldu 355436500265) := by decide
theorem test_decode_lds : decode 0x03_FFFFFFFFFFFFFFFB = some (.lds (BitVec.ofInt 64 (-5))) := by decide
theorem test_decode_ldstr : decode 0x04_000000000000000D = some (.ldstr 13) := by decide
theorem test_decode_push : decode 0x10_0000000000000001 = some (.push true) := by decide
theorem test_decode_shl : decode 0x11_00000000FFFFFFFF = some (.shl 4294967295) := by decide
theorem test_decode_shr : decode 0x12_0000000000000008 = some (.shr 8) := by decide
theorem test_decode_shlv : decode 0x13_000000000000003C = some (.shlv 60) := by decide
theorem test_decode_shrv : decode 0x14_0000000000000040 = some (.shrv 64) := by decide
theorem test_decode_btst_minus_one : decode 0x20_00000000FFFFFFFF = some (.btst (BitVec.ofInt 32 (-1))) := by decide
theorem test_decode_run : decode 0x21_0000000000000000 = some .run := by decide
theorem test_decode_rdu : decode 0x30_0000000000000000 = some .rdu := by decide
theorem test_decode_rds : decode 0x31_0000000000000000 = some .rds := by decide
theorem test_decode_rdw : decode 0x32_0000000000000000 = some .rdw := by decide
theorem test_decode_rdstr : decode 0x33_0000000000000000 = some .rdstr := by decide

/-- X1 to X5, X6 to X15: every illegal word of the spec's vectors. -/
theorem test_decode_illegal_words : ([0x01_0000000000000001, 0x10_0000000000000002, 0x11_0000000100000000, 0x20_FFFFFFFFFFFFFFFF,
    0x21_0000000000000001, 0x00_0000000000000000, 0xFF_FFFFFFFFFFFFFFFF, 0x05_0000000000000000, 0x15_0000000000000000,
    0x22_0000000000000000, 0x34_0000000000000000, 0x30_8000000000000000, 0x33_0000000000000040, 0x12_8000000000000001,
    0x31_0000000000000001] : List CmdWord).all (fun cw => decode cw == none) = true := by decide

theorem test_encode_btst_minus_one : encode (.btst (BitVec.ofInt 32 (-1))) = 0x20_00000000FFFFFFFF := by decide
theorem test_decodeTableWord_push : decodeTableWord 72 0x10_0000000000000001 = some (.push true) := by decide

/-! ### Well-formedness (30_encoding.md R30, R44): each check refuses an ill-formed term -/

theorem test_wf_pair_refuses_short_string : (Instr.ldstr 3).takesInput [0x31] = false := by decide
theorem test_wf_pair_refuses_characters_without_ldstr : Instr.clr.takesInput [0x31] = false := by decide
theorem test_wf_ldu_refuses_2_64 : (AsmLine.ldu (2 ^ 64)).inRange = false := by decide
theorem test_wf_lds_refuses_2_63 : (AsmLine.lds (2 ^ 63)).inRange = false := by decide
theorem test_wf_lds_refuses_below : (AsmLine.lds (-(2 ^ 63) - 1)).inRange = false := by decide
theorem test_wf_ldstr_refuses_non_ascii : (AsmLine.ldstr [Char.ofNat 0x203]).inRange = false := by decide
theorem test_wf_push_refuses_2 : (AsmLine.push 2).inRange = false := by decide
theorem test_wf_shl_refuses_2_32 : (AsmLine.shl (2 ^ 32)).inRange = false := by decide
theorem test_wf_shr_refuses_2_32 : (AsmLine.shr (2 ^ 32)).inRange = false := by decide
theorem test_wf_shlv_refuses_2_32 : (AsmLine.shlv (2 ^ 32)).inRange = false := by decide
theorem test_wf_shrv_refuses_2_32 : (AsmLine.shrv (2 ^ 32)).inRange = false := by decide
theorem test_wf_btst_refuses_2_31 : (AsmLine.btst (2 ^ 31)).inRange = false := by decide
theorem test_wf_word_refuses_73_bits : (AsmLine.word (2 ^ 72)).inRange = false := by decide

/-! ### One step of every command -/

/-- R50, the example. -/
theorem test_clr : run1 0xFFFFFFFFFFFFFFFF .clr = (some 0, some (0x00, 0, [])) := by decide
/-- L4. -/
theorem test_ldu : run1 5 (.ldu 0x8000000000000000) = (some 0x8000000000000000, some (0x00, 0, [])) := by decide
/-- I6. -/
theorem test_lds_min : run1 5 (.lds (BitVec.ofInt 64 (-9223372036854775808))) = (some 0x8000000000000000, some (0x00, 0, [])) := by decide
/-- S6, `"11x1"`: a character that is not `'1'` pushes 0 in its place. -/
theorem test_ldstr_11x1 : runWord 9 0x04_0000000000000004 [0x31, 0x31, 0x78, 0x31] = (some 0xD, some (0x00, 0, [])) := by decide +kernel
/-- S13, `"1"` and 64 `"0"`: the first character is pushed out. -/
theorem test_ldstr_65 : runWord 9 0x04_0000000000000041 (0x31 :: List.replicate 64 0x30) = (some 0, some (0x00, 0, [])) := by decide +kernel
/-- PU4. -/
theorem test_push_1 : run1 2 (.push true) = (some 5, some (0x00, 0, [])) := by decide
/-- PU5: bit 63 is discarded. -/
theorem test_push_0 : run1 0xFFFFFFFFFFFFFFFF (.push false) = (some 0xFFFFFFFFFFFFFFFE, some (0x00, 0, [])) := by decide
/-- H7. -/
theorem test_shl_33 : run1 0x0123456789ABCDEF (.shl 33) = (some 0x13579BDE00000000, some (0x00, 0, [])) := by decide
/-- H12: no wrap of the amount. -/
theorem test_shl_max : run1 0x0123456789ABCDEF (.shl 4294967295) = (some 0, some (0x00, 0, [])) := by decide
/-- H14: a logical shift. -/
theorem test_shr_1 : run1 0x8000000000000001 (.shr 1) = (some 0x4000000000000000, some (0x00, 0, [])) := by decide
/-- H18. -/
theorem test_shr_64 : run1 0x8000000000000001 (.shr 64) = (some 0, some (0x00, 0, [])) := by decide
/-- H25. -/
theorem test_shlv_60 : run1 0xFFFFFFFFFFFFFFFF (.shlv 60) = (some 0xFFFFFFFFFFFFFFFF, some (0x00, 0xF000000000000000, [])) := by decide
/-- H26. -/
theorem test_shrv_60 : run1 0xFFFFFFFFFFFFFFFF (.shrv 60) = (some 0xFFFFFFFFFFFFFFFF, some (0x00, 0xF, [])) := by decide
/-- B5. -/
theorem test_btst_63 : run1 0x8000000000000000 (.btst 63) = (some 0x8000000000000000, some (0x00, 1, [])) := by decide
/-- B9: not wrapped to position 63 or 31. -/
theorem test_btst_minus_one : run1 0xFFFFFFFFFFFFFFFF (.btst 0xFFFFFFFF) = (some 0xFFFFFFFFFFFFFFFF, some (0x02, 0, [])) := by decide
/-- RN12: bits above the first 0 do not count. -/
theorem test_run_32 : run1 0xFFFFFFFEFFFFFFFF .run = (some 0xFFFFFFFEFFFFFFFF, some (0x00, 32, [])) := by decide
/-- RN14. -/
theorem test_run_64 : run1 0xFFFFFFFFFFFFFFFF .run = (some 0xFFFFFFFFFFFFFFFF, some (0x00, 64, [])) := by decide
/-- V8. -/
theorem test_rdu : run1 0xFFFFFFFF00000000 .rdu = (some 0xFFFFFFFF00000000, some (0x00, 0xFFFFFFFF00000000, [])) := by decide
/-- V10: the largest value that fits. -/
theorem test_rds_fits : run1 0x7FFFFFFFFFFFFFFF .rds = (some 0x7FFFFFFFFFFFFFFF, some (0x00, 0x7FFFFFFFFFFFFFFF, [])) := by decide
/-- V11: the smallest that does not. -/
theorem test_rds_overflow : run1 0x8000000000000000 .rds = (some 0x8000000000000000, some (0x01, 0, [])) := by decide
/-- V9. -/
theorem test_rdw_negative : run1 0x00000052C1AA9529 .rdw = (some 0x00000052C1AA9529, some (0x00, 0xFFFFFFFFC1AA9529, [])) := by decide
/-- V6. -/
theorem test_rdw_drops_high : run1 0x0000000100000000 .rdw = (some 0x0000000100000000, some (0x00, 0, [])) := by decide
/-- T2: `VALUE = 5`. -/
theorem test_rdstr : run1 5 .rdstr = (some 5, some (0x00, 0, List.replicate 61 0x30 ++ [0x31, 0x30, 0x31])) := by decide
/-- T5: bit 63 is the first character. -/
theorem test_rdstr_msb : run1 0x8000000000000000 .rdstr = (some 0x8000000000000000, some (0x00, 0, 0x31 :: List.replicate 63 0x30)) := by decide

/-! ### The step -/

/-- X15: an illegal `RDS` word on a value that would overflow: legality comes first (R95). -/
theorem test_illegal_before_overflow : runWord 0xFFFFFFFFFFFFFFFF 0x31_0000000000000001 [] =
    (some 0xFFFFFFFFFFFFFFFF, some (0x03, 0, [])) := by decide
/-- X4: `pos = -1` sign-extended into the reserved bits. -/
theorem test_illegal_before_invalid : runWord 7 0x20_FFFFFFFFFFFFFFFF [] = (some 7, some (0x03, 0, [])) := by decide
/-- R30: a pair that is no command is refused. -/
theorem test_pair_refused : refusedPair (step ((holding 7).given [.command 0x04_0000000000000003 [0x31]])) = true := by decide
/-- R110: reset produces no response. -/
theorem test_reset_event : step ((holding 7).given [.reset]) = .next (holding 0) := by rfl
/-- R103: nothing pending. -/
theorem test_idle : step (holding 7) = .next (holding 7) := by rfl
/-- The first instruction after reset, from a table word: `BTST 0` of 0. -/
theorem test_withFetchWord : answerOf (step (State.reset.withFetchWord 72 0x20_0000000000000000)) = some (0x00, 0, []) := by decide
theorem test_withFetchWord_ldstr : valueOf (step (State.reset.withFetchWord 72 0x04_0000000000000003)) = some 0 := by decide +kernel

/-! ### The assembler (30_encoding.md R44, R45; words of 95_test_vectors.md) -/

/-- `LDSTR "001" ; a comment` (R53, the example). -/
theorem test_assemble_ldstr : (parseLine ['L', 'D', 'S', 'T', 'R', ' ', '"', '0', '0', '1', '"', ' ', ';', ' ', 'x']).map (fun p => assemble p.1) =
    some (some (.command 0x04_0000000000000003 [0x30, 0x30, 0x31])) := by decide
/-- `LDS -5` (R52, the example). -/
theorem test_assemble_lds : (parseLine ['L', 'D', 'S', ' ', '-', '5']).map (fun p => assemble p.1) =
    some (some (.command 0x03_FFFFFFFFFFFFFFFB [])) := by decide
/-- `BTST -64` (B10). -/
theorem test_assemble_btst : (parseLine ['B', 'T', 'S', 'T', ' ', '-', '6', '4']).map (fun p => assemble p.1) =
    some (some (.command 0x20_00000000FFFFFFC0 [])) := by decide
/-- `LDU BS_MAX` (R45). -/
theorem test_assemble_symbol : (parseLine ['L', 'D', 'U', ' ', 'B', 'S', '_', 'M', 'A', 'X']).map (fun p => assemble p.1) =
    some (some (.command 0x02_FFFFFFFFFFFFFFFF [])) := by decide
/-- `.word 0x99_0000000000000000` (P4, step 5). -/
theorem test_assemble_word : (parseLine (['.', 'w', 'o', 'r', 'd', ' ', '0', 'x', '9', '9', '_'] ++ List.replicate 16 '0')).map (fun p => assemble p.1) =
    some (some (.command 0x99_0000000000000000 [])) := by decide
/-- `PUSH 2` is outside its range. -/
theorem test_assemble_refuses : (parseLine ['P', 'U', 'S', 'H', ' ', '2']).map (fun p => assemble p.1) = some none := by decide
/-- `RUN -> OK 3` (E1): the listing's expected response is the block's answer for `VALUE = 7`. -/
theorem test_listing : parseLine ['R', 'U', 'N', ' ', '-', '>', ' ', 'O', 'K', ' ', '3'] = some (.run, some (.okData 3)) ∧
    Response.answers ⟨responseWord .ok 3, []⟩ (.okData 3) = true := by decide

/-! ### Witnesses: the hypotheses of the statements can be met -/

theorem witness_LegalWordIsTheWordOfItsCommand : decode 0x11_0000000000000008 = some (.shl 8) := by decide
theorem witness_WordIsTheCommandOfARowExactlyWhenItMatches :
    (0x20_00000000FFFFFFFF : CmdWord) &&& 0xFF_FFFFFFFF00000000 = 0x20_0000000000000000 := by decide
/-- One word for each clause of the statement, each with a single bit out of place. -/
theorem witness_IllegalWordsAreTheseAndAreAnsweredIllegalCommand :
    decode 0x05_0000000000000000 = none ∧ decode 0x33_0000000000000001 = none ∧ decode 0x14_0000000100000000 = none ∧
      decode 0x10_0000000000000002 = none := by decide
theorem witness_StepRunsTheDecodedCommand :
    ((holding 7).given [.command 0x04_0000000000000001 [0x31], .reset]).pending = .command 0x04_0000000000000001 [0x31] :: [.reset] ∧
      decode 0x04_0000000000000001 = some (.ldstr 1) ∧ (Instr.ldstr 1).takesInput [0x31] = true := by decide
/-- One character short, one too many, and a character beside another word, legal or illegal. -/
theorem witness_StepRefusesAPairWithTheWrongInputLength :
    (decode 0x04_0000000000000002 = some (.ldstr 2) ∧ [0x31#8].length ≠ ((0x04_0000000000000002 : CmdWord).extractLsb' 0 64).toNat) ∧
      (decode 0x04_0000000000000000 = some (.ldstr 0) ∧ [0x31#8].length ≠ ((0x04_0000000000000000 : CmdWord).extractLsb' 0 64).toNat) ∧
      (decode 0x30_0000000000000000 = some .rdu ∧ [0x31#8].length ≠ 0) ∧ (decode 0 = none ∧ [0x31#8] ≠ []) := by decide
theorem witness_StepWithNothingPendingHoldsValue : (holding 7).pending = [] := by decide
/-- A state with `VALUE` 0 that is not `State.reset`; `BTST` at both ends of its legal range, and a shift by the largest amount. -/
theorem witness_AfterResetEveryReadShowsZero :
    ({ holding 0 with input := [0x31] } : State).value = 0 ∧
      ([.btst 0, .btst 63, .shlv 0xFFFFFFFF, .rdw] : List Instr).all (fun i =>
        ([.shlv, .shrv, .btst, .run, .rdu, .rds, .rdw] : List Mnemonic).contains i.mnemonic) = true ∧
      (0 : Half).toNat ≤ 63 ∧ (63 : Half).toNat ≤ 63 := by decide
theorem witness_LdsStoresTheTwosComplementPattern :
    (-(2 ^ 63) ≤ (-(2 ^ 63) : Int) ∧ (-(2 ^ 63) : Int) < 2 ^ 63) ∧ (-(2 ^ 63) ≤ (-1 : Int) ∧ (-1 : Int) < 2 ^ 63) ∧
      (-(2 ^ 63) ≤ (0 : Int) ∧ (0 : Int) < 2 ^ 63) ∧ (-(2 ^ 63) ≤ (2 ^ 63 - 1 : Int) ∧ (2 ^ 63 - 1 : Int) < 2 ^ 63) := by decide
/-- No character, one, 64 and 65. -/
theorem witness_LdstrParsesItsString : ([[], [0x31], List.replicate 64 0x31, List.replicate 65 0x31] : List (List Code)).all
    (fun s => decide (({ holding 7 with input := s } : State).input.length = (BitVec.ofNat 64 s.length : Word).toNat)) = true := by decide
theorem witness_LdstrKeepsOnlyTheLast64Characters :
    (List.replicate 64 0x30#8).length = 64 ∧ ([0x31#8] ++ List.replicate 64 0x30#8).length < 2 ^ 64 := by decide
theorem witness_ConstructionIsTotalAndNeverReadsValue :
    decode 0x04_0000000000000001 = some (.ldstr 1) ∧ (Instr.ldstr 1).takesInput [0x31] = true ∧
      (Instr.ldstr 1).mnemonic ∈ ([.clr, .ldu, .lds, .ldstr] : List Mnemonic) := by decide
/-- Positions 0, 63 for the first clause, 64, -1, the largest and the smallest `i32` for the second. -/
theorem witness_BtstReturnsTheBitAtALegalPosition :
    ((0 : Half).toInt = 0 ∧ (63 : Half).toInt = 63) ∧
      ((64 : Half).toInt > 63 ∧ (0xFFFFFFFF : Half).toInt < 0 ∧ (0x7FFFFFFF : Half).toInt > 63 ∧ (0x80000000 : Half).toInt < 0) := by decide
theorem witness_RdsReturnsAValueThatFits :
    (holding 0x7FFFFFFFFFFFFFFF).value.toNat ≤ 2 ^ 63 - 1 ∧ 2 ^ 63 - 1 < (holding 0x8000000000000000).value.toNat := by decide
theorem witness_OnlyRdsAndBtstCanFail :
    (Instr.ldstr 1).takesInput ({ holding 7 with input := [0x31] } : State).input = true ∧ Instr.rds.takesInput (holding 7).input = true := by
  decide
theorem witness_EveryCommandGetsExactlyOneResponse :
    (HostEvent.command 0x33_0000000000000000 []).isPaired = true ∧ (HostEvent.command 0xFF_0000000000000000 []).isPaired = true ∧
      (HostEvent.command 0x04_0000000000000001 [0x32]).isPaired = true ∧
      step ((holding 7).given [.reset]) = .next (holding 0) :=
  ⟨by decide, by decide, by decide, rfl⟩
theorem witness_RunsCompleteWhileTheHostKeepsItsDuty :
    ((holding 7).given [cmd .rds, .reset, ldstrCmd [0x31, 0x78], .command 0 []]).hostObeys = true ∧
      4 ≤ ((holding 7).given [cmd .rds, .reset, ldstrCmd [0x31, 0x78], .command 0 []]).pending.length := by decide
/-- A state with something answered and something pending, and the step it takes. -/
theorem witness_EveryStepKeepsTheInvariant :
    ({ holding 7 with pending := [.reset], responses := [⟨responseWord .overflow 0, []⟩, ⟨responseWord .ok 9, []⟩] } : State).Inv ∧
      step { holding 7 with pending := [.reset], responses := [⟨responseWord .overflow 0, []⟩, ⟨responseWord .ok 9, []⟩] } =
        .next { holding 0 with responses := [⟨responseWord .overflow 0, []⟩, ⟨responseWord .ok 9, []⟩] } := by
  refine ⟨?_, rfl⟩
  unfold State.Inv Response.wellShaped
  decide
/-- A response of each status: `OK`, `Overflow`, `InvalidArgument`, `IllegalCommand`. -/
theorem witness_ErrorsHaveTheirOneCauseAndChangeNothing :
    (runWord 7 0x31_0000000000000000 []).2 = some (0x00, 7, []) ∧
      (runWord 0x8000000000000000 0x31_0000000000000000 []).2 = some (0x01, 0, []) ∧
      (runWord 7 0x20_0000000000000040 []).2 = some (0x02, 0, []) ∧
      (runWord 7 0x99_0000000000000000 []).2 = some (0x03, 0, []) := by decide
theorem witness_OnlyResetAndTheWritingCommandsChangeValue :
    step ((holding 7).given [.reset]) = .next (holding 0) ∧ (holding 0).value ≠ (holding 7).value ∧
      (runWord 7 0x11_0000000000000001 []).1 = some 14 := ⟨rfl, by decide, by decide⟩
theorem witness_ReadsAndIllegalWordsDoNotDisturbValue :
    decode 0x20_0000000000000040 = some (.btst 64) ∧ (Instr.btst 64).mnemonic ∈ ([.shlv, .shrv, .btst, .run, .rdu, .rds, .rdw, .rdstr] : List Mnemonic) ∧
      decode 0x21_0000000000000007 = none := by decide
/-- Two states that differ only in what was answered before, and a run of the first. -/
theorem witness_WhatWasAnsweredBeforeDoesNotMatter :
    ({ holding 7 with responses := [⟨responseWord .overflow 0, []⟩] } : State).value = (holding 7).value ∧
      ({ holding 7 with responses := [⟨responseWord .overflow 0, []⟩] } : State).pending = (holding 7).pending ∧
      Host.Core.run Sys2Proof.core 2 ({ holding 7 with responses := [⟨responseWord .overflow 0, []⟩] } : State) =
        .next ({ holding 7 with responses := [⟨responseWord .overflow 0, []⟩] } : State) := ⟨rfl, rfl, rfl⟩
theorem witness_LaterEventsDoNotAffectEarlierOnes :
    [cmd (.push true), .reset, ldstrCmd [0x31], .command 0 []].all HostEvent.isPaired = true := by decide
/-- The ends of both clauses: `i` from -2^63 to 2^63 - 1, `u` up to 2^63 - 1. -/
theorem witness_SignedRoundTripIsPartial :
    (-(2 ^ 63) ≤ (-(2 ^ 63) : Int) ∧ (-(2 ^ 63) : Int) < 0) ∧ (-(2 ^ 63) ≤ (2 ^ 63 - 1 : Int) ∧ (2 ^ 63 - 1 : Int) < 2 ^ 63) ∧
      (0x7FFFFFFFFFFFFFFF : Word).toNat ≤ 2 ^ 63 - 1 := by decide
/-- A string that comes back as it is, and one that does not. -/
theorem witness_StringRoundTrip :
    (List.replicate 64 0x31#8).length < 2 ^ 64 ∧ [0x30#8, 0x30#8, 0x31#8].length < 2 ^ 64 := by decide
theorem witness_BitTestAgreesWithTheString : (0 : Half).toNat ≤ 63 ∧ (63 : Half).toNat ≤ 63 := by decide
theorem witness_PushesCompose : 64 ≤ (List.replicate 64 true).length := by decide
theorem witness_LdstrIsClrThenOnePushForEachCharacter : [0x31#8, 0x78#8].length < 2 ^ 64 := by decide
/-- `SHL`, `BTST` and `LDU` at the ends of their ranges, the empty text, and one with a character that is no digit. -/
theorem witness_AssembledLinesAreLegalCommands_own :
    (AsmLine.shl 4294967295).standsFor (.shl 0xFFFFFFFF) [] ∧ (AsmLine.btst (-2147483648)).standsFor (.btst 0x80000000) [] ∧
      (AsmLine.ldu 0).standsFor (.ldu 0) [] ∧ (AsmLine.ldstr []).standsFor (.ldstr 0) [] ∧
      (AsmLine.ldstr ['1', ' ']).standsFor (.ldstr 2) [0x31, 0x20] :=
  ⟨⟨0xFFFFFFFF, rfl, rfl, rfl⟩, ⟨0x80000000, rfl, rfl, rfl⟩, ⟨0, rfl, rfl, rfl⟩, ⟨0, rfl, rfl, rfl, by simp⟩, ⟨2, rfl, rfl, rfl, by simp⟩⟩
theorem witness_AssembledLinesAreLegalCommands :
    assemble (.btst (-1)) = some (.command 0x20_00000000FFFFFFFF []) ∧ AsmLine.btst (-1) ≠ .word 0 ∧
      assemble (.ldstr ['1', ' ']) = some (.command 0x04_0000000000000002 [0x31, 0x20]) := by decide

end Sys2Proof.Tests
end

/-!
PROOFS. The family of the state (spec/10_state.md): O10, O36, O38, O41. First the facts they share: the word of a command decodes to
that command, and a command pair of the interface (R30) is R9's function `VALUE x (CW, S) -> VALUE' x (RW, T)`, here `valueAfter` and
`answerTo`. The proofs below go through those two functions, not through the fifteen meanings.
-/

namespace Sys2Proof

/-! ### The word of a command decodes to that command -/

namespace Laws.EncodeMatchesRow

/-- The word of every command is covered by the row of its mnemonic: the fifteen lemmas of Laws/PerInstr.lean together. -/
theorem all (i : Instr) : Statement i := by
  cases i with
  | clr => exact clr
  | ldu u => exact ldu u
  | lds i => exact lds i
  | ldstr len => exact ldstr len
  | push b => exact push b
  | shl n => exact shl n
  | shr n => exact shr n
  | shlv n => exact shlv n
  | shrv n => exact shrv n
  | btst pos => exact btst pos
  | run => exact run
  | rdu => exact rdu
  | rds => exact rds
  | rdw => exact rdw
  | rdstr => exact rdstr

end Laws.EncodeMatchesRow

/-- R39: no two rows have one opcode, so the search by opcode finds the row itself. -/
theorem find?_op_of_mem_opcodeTable : ∀ r ∈ opcodeTable, opcodeTable.find? (fun r' => r'.op == r.op) = some r := by decide

/-- R33: a 32-bit operand comes back from its zero-extended field. -/
theorem extractLsb'_setWidth_half (n : Half) : (n.setWidth 64).extractLsb' 0 32 = n := by
  apply BitVec.eq_of_toNat_eq
  have := n.isLt
  simp only [BitVec.extractLsb'_toNat, BitVec.toNat_setWidth, Nat.shiftRight_zero]
  omega

/-- R33: the operand taken from the field of a command is the command's own. -/
theorem instrOf_operandField (i : Instr) : instrOf i.mnemonic (operandField i) = i := by
  cases i with
  | push b => cases b <;> rfl
  | shl n => exact congrArg Instr.shl (extractLsb'_setWidth_half n)
  | shr n => exact congrArg Instr.shr (extractLsb'_setWidth_half n)
  | shlv n => exact congrArg Instr.shlv (extractLsb'_setWidth_half n)
  | shrv n => exact congrArg Instr.shrv (extractLsb'_setWidth_half n)
  | btst pos => exact congrArg Instr.btst (extractLsb'_setWidth_half pos)
  | _ => rfl

/-- R33, R39, R42: the row the decoder finds by its opcode covers the word, and the operand field holds the command's operand. -/
theorem decode_encode (i : Instr) : decode (encode i) = some i := by
  obtain ⟨r, hr, hm, ho, hcovers⟩ := Laws.EncodeMatchesRow.all i
  have hfind := find?_op_of_mem_opcodeTable r hr
  have hc : r.covers (opcode i.mnemonic ++ operandField i) = true := beq_iff_eq.2 hcovers
  rw [ho] at hfind
  rw [encode, decode_append, hfind, Option.bind_some, if_pos hc, hm, instrOf_operandField]

/-- R30: a command other than `LDSTR` takes no input characters. -/
theorem takesInput_nil_of_ne_ldstr {i : Instr} (h : i.mnemonic ≠ .ldstr) : i.takesInput [] = true := by
  cases i with
  | ldstr len => exact absurd rfl h
  | _ => rfl

namespace Machine

/-! ### A command as a function of `VALUE` and `S` (R9) -/

/-- R36, R37: the three parts of a response, before status and data are put together in its word. -/
structure Answer where
  status : Status := .ok
  data : Word := 0
  chars : List Code := []

/-- R9's `VALUE'`: the seven writing commands of Table R16 give a new value, every other command keeps the old one. -/
def valueAfter (i : Instr) (v : Word) (input : List Code) : Word :=
  match i with
  | .clr => 0
  | .ldu u => u
  | .lds j => j
  | .ldstr _ => parseString input
  | .push b => push1 v b
  | .shl n => shl64 v (shiftAmount n)
  | .shr n => shr64 v (shiftAmount n)
  | _ => v

/-- R9's `(RW, T)`: the eight reading commands answer from `VALUE`, every writing command with `ok()`. -/
def answerTo (i : Instr) (v : Word) : Answer :=
  match i with
  | .shlv n => { data := shl64 v (shiftAmount n) }
  | .shrv n => { data := shr64 v (shiftAmount n) }
  | .btst pos =>
    if positionInvalid (bitPosition pos) then { status := .invalidArgument }
    else { data := dataOfBool (bitAt v (bitPosition pos)) }
  | .run => { data := dataOfCount (onesRun v) }
  | .rdu => { data := v }
  | .rds => if exceedsSigned v then { status := .overflow } else { data := v }
  | .rdw => { data := dataOfSigned (v.extractLsb' 0 32) }
  | .rdstr => { chars := renderString v }
  | _ => {}

theorem answerTo_shlv (n : Half) (v : Word) : answerTo (.shlv n) v = { data := shl64 v (shiftAmount n) } := rfl

theorem answerTo_shrv (n : Half) (v : Word) : answerTo (.shrv n) v = { data := shr64 v (shiftAmount n) } := rfl

theorem answerTo_btst (pos : Half) (v : Word) :
    answerTo (.btst pos) v = if positionInvalid (bitPosition pos) then { status := .invalidArgument }
      else { data := dataOfBool (bitAt v (bitPosition pos)) } := rfl

theorem answerTo_rds (v : Word) :
    answerTo .rds v = if exceedsSigned v then { status := .overflow } else { data := v } := rfl

/-- The state after a command that leaves `v` in `VALUE` and answers `a`. -/
def State.complete (s : State) (v : Word) (a : Answer) : State := (s.setValue v).respond a.status a.data a.chars

@[simp] theorem State.complete_value (s : State) (v : Word) (a : Answer) : (s.complete v a).value = v := rfl
@[simp] theorem State.complete_pending (s : State) (v : Word) (a : Answer) : (s.complete v a).pending = s.pending := rfl
@[simp] theorem State.complete_input (s : State) (v : Word) (a : Answer) : (s.complete v a).input = [] := rfl
@[simp] theorem State.complete_responses (s : State) (v : Word) (a : Answer) :
    (s.complete v a).responses = s.responses ++ [⟨responseWord a.status a.data, a.chars⟩] := rfl

theorem answered_complete (s : State) (v : Word) (a : Answer) :
    Answered s (s.complete v a) v a.status.code a.data a.chars :=
  respond_answered s v a.status a.data a.chars

/-- R9: every command pair of the interface completes, and what it does is `valueAfter` and `answerTo`. -/
theorem exec_eq_complete {i : Instr} {s : State} (h : i.takesInput s.input = true) :
    exec i s = .next (s.complete (valueAfter i s.value s.input) (answerTo i s.value)) := by
  cases i with
  | ldstr len => exact if_pos (beq_iff_eq.1 h)
  | btst pos =>
    rw [answerTo_btst]
    simp only [exec, execBtst]
    split <;> rfl
  | rds =>
    rw [answerTo_rds]
    simp only [exec, execRds]
    split <;> rfl
  | _ => rfl

/-- Table R16: a command that gives `VALUE` another value is one of the seven writing commands. -/
theorem mnemonic_mem_writing_of_valueAfter_ne {i : Instr} {v : Word} {input : List Code} (h : valueAfter i v input ≠ v) :
    i.mnemonic ∈ ([.clr, .ldu, .lds, .ldstr, .push, .shl, .shr] : List Mnemonic) := by
  cases i with
  | shlv | shrv | btst | run | rdu | rds | rdw | rdstr => exact absurd rfl h
  | _ => simp [Instr.mnemonic]

/-- Table R16: the eight reading commands keep `VALUE`. -/
theorem valueAfter_of_reading {i : Instr}
    (h : i.mnemonic ∈ ([.shlv, .shrv, .btst, .run, .rdu, .rds, .rdw, .rdstr] : List Mnemonic)) (v : Word) (input : List Code) :
    valueAfter i v input = v := by
  cases i with
  | clr | ldu | lds | ldstr | push | shl | shr => simp [Instr.mnemonic] at h
  | _ => rfl

/-! ### What a step does, event by event -/

theorem step_of_pending_nil {s : State} (h : s.pending = []) : step s = .next s := by
  simp only [step, h, idle]

theorem step_of_pending_reset {s : State} {rest : List HostEvent} (h : s.pending = .reset :: rest) :
    step s = .next (s.applyReset rest) := by
  simp only [step, h]

theorem step_of_pending_legal {s : State} {cw : CmdWord} {chars : List Code} {rest : List HostEvent} {i : Instr}
    (h : s.pending = .command cw chars :: rest) (hd : decode cw = some i) (ht : i.takesInput chars = true) :
    step s = .next ((s.given rest).complete (valueAfter i s.value chars) (answerTo i s.value)) := by
  have hexec : exec i (s.present chars rest) = _ := exec_eq_complete (s := s.present chars rest) ht
  simp only [step, h, performCommand, hd, State.present_input, ht, if_true, hexec]
  rfl

theorem step_of_pending_illegal {s : State} {cw : CmdWord} {rest : List HostEvent}
    (h : s.pending = .command cw [] :: rest) (hd : decode cw = none) :
    step s = .next ((s.given rest).complete s.value { status := .illegalCommand }) := by
  simp only [step, h, performCommand, hd]
  rfl

/-- What a step can do, with the command's effect in closed form. -/
theorem step_next_cases {s t : State} (h : step s = .next t) :
    (s.pending = [] ∧ t = s) ∨
    (∃ rest, s.pending = .reset :: rest ∧ t = s.applyReset rest) ∨
    (∃ cw chars rest i, s.pending = .command cw chars :: rest ∧ decode cw = some i ∧ i.takesInput chars = true ∧
      t = (s.given rest).complete (valueAfter i s.value chars) (answerTo i s.value)) ∨
    (∃ cw rest, s.pending = .command cw [] :: rest ∧ decode cw = none ∧
      t = (s.given rest).complete s.value { status := .illegalCommand }) := by
  obtain hidle | hreset | ⟨cw, chars, rest, hp, ⟨i, hd, ht, -⟩ | ⟨hd, rfl, -⟩⟩ := step_cases h
  · exact .inl hidle
  · exact .inr (.inl hreset)
  · rw [step_of_pending_legal hp hd ht] at h
    exact .inr (.inr (.inl ⟨cw, chars, rest, i, hp, hd, ht, (Host.Outcome.next.inj h).symm⟩))
  · rw [step_of_pending_illegal hp hd] at h
    exact .inr (.inr (.inr ⟨cw, rest, hp, hd, (Host.Outcome.next.inj h).symm⟩))

/-- The step at a presented command without input characters. -/
theorem step_given_cmd {i : Instr} (hi : i.mnemonic ≠ .ldstr) (s : State) (rest : List HostEvent) :
    step (s.given (cmd i :: rest)) = .next ((s.given rest).complete (valueAfter i s.value []) (answerTo i s.value)) :=
  step_of_pending_legal (s := s.given (cmd i :: rest)) rfl (decode_encode i) (takesInput_nil_of_ne_ldstr hi)

/-! ### O38: the responses given have no influence -/

/-- The two states are one as far as the block can tell: the same `VALUE` and the same events to come. The responses given may differ. -/
def SameFuture (s₁ s₂ : State) : Prop := s₁.value = s₂.value ∧ s₁.pending = s₂.pending

/-- From two such states a step ends in two such states, and adds the same responses to both records. -/
theorem step_sameFuture {s₁ s₂ t₁ : State} (hs : SameFuture s₁ s₂) (h : step s₁ = .next t₁) :
    ∃ (t₂ : State) (added : List Response), step s₂ = .next t₂ ∧ SameFuture t₁ t₂ ∧
      t₁.responses = s₁.responses ++ added ∧ t₂.responses = s₂.responses ++ added := by
  obtain ⟨hv, hp⟩ := hs
  obtain ⟨h₁, rfl⟩ | ⟨rest, h₁, rfl⟩ | ⟨cw, chars, rest, i, h₁, hd, ht, rfl⟩ | ⟨cw, rest, h₁, hd, rfl⟩ := step_next_cases h
  · exact ⟨s₂, [], step_of_pending_nil (hp.symm.trans h₁), ⟨hv, hp⟩, by simp, by simp⟩
  · exact ⟨_, [], step_of_pending_reset (hp.symm.trans h₁), ⟨rfl, rfl⟩, by simp, by simp⟩
  · exact ⟨_, _, step_of_pending_legal (hp.symm.trans h₁) hd ht, ⟨by simp [hv], rfl⟩, rfl, by simp [hv]⟩
  · exact ⟨_, _, step_of_pending_illegal (hp.symm.trans h₁) hd, ⟨hv, rfl⟩, rfl, rfl⟩

/-- The same for a run, by induction on its steps. -/
theorem run_sameFuture {n : Nat} {s₁ s₂ t₁ : State} (hs : SameFuture s₁ s₂) (h : Host.Core.run Sys2Proof.core n s₁ = .next t₁) :
    ∃ (t₂ : State) (added : List Response), Host.Core.run Sys2Proof.core n s₂ = .next t₂ ∧ SameFuture t₁ t₂ ∧
      t₁.responses = s₁.responses ++ added ∧ t₂.responses = s₂.responses ++ added := by
  induction n generalizing s₁ s₂ with
  | zero =>
    cases h
    exact ⟨s₂, [], rfl, hs, by simp, by simp⟩
  | succ n ih =>
    obtain ⟨u₁, hstep, hrun⟩ := run_succ_cases h
    obtain ⟨u₂, first, hstep₂, hu, hu₁, hu₂⟩ := step_sameFuture hs hstep
    obtain ⟨t₂, later, hrun₂, ht, ht₁, ht₂⟩ := ih hu hrun
    refine ⟨t₂, first ++ later, (run_next hstep₂ n).trans hrun₂, ht, ?_, ?_⟩
    · rw [ht₁, hu₁, List.append_assoc]
    · rw [ht₂, hu₂, List.append_assoc]

/-- Settles O38: "the same `VALUE` and the same events to come" is kept by every step of the two runs. -/
theorem whatWasAnsweredBeforeDoesNotMatter : Obligations.WhatWasAnsweredBeforeDoesNotMatter := by
  intro n s₁ s₂ t₁ hv hp h
  obtain ⟨t₂, added, hrun, ⟨hvalue, -⟩, h₁, h₂⟩ := run_sameFuture ⟨hv, hp⟩ h
  exact ⟨t₂, added, hrun, hvalue.symm, h₁, h₂⟩

/-! ### O10: what the reading commands show of `VALUE` 0 -/

/-- R70: a position whose field read unsigned is at most 63 is legal. -/
theorem positionInvalid_of_toNat_le {pos : Half} (h : pos.toNat ≤ 63) : positionInvalid (bitPosition pos) = false := by
  have hint : bitPosition pos = (pos.toNat : Int) := BitVec.toInt_eq_toNat_of_lt (by omega)
  simp only [positionInvalid, Config.topPosition, hint, Bool.or_eq_false_iff, decide_eq_false_iff_not]
  omega

theorem renderString_zero : renderString 0 = List.replicate 64 0x30 := by decide

/-- R19, R63, R64, R82: of `VALUE` 0 every read that returns data returns `OK` and 0. -/
theorem answerTo_zero {i : Instr} (hi : i.mnemonic ∈ ([.shlv, .shrv, .btst, .run, .rdu, .rds, .rdw] : List Mnemonic))
    (hpos : ∀ pos, i = .btst pos → pos.toNat ≤ 63) : answerTo i 0 = {} := by
  cases i with
  | shlv n => simp [answerTo_shlv, shl64_eq_shiftLeft]
  | shrv n => simp [answerTo_shrv, shr64_eq_ushiftRight]
  | btst pos =>
    have hlegal := positionInvalid_of_toNat_le (hpos pos rfl)
    simp [answerTo_btst, hlegal, bitAt, dataOfBool]
  | run | rdu | rds | rdw => rfl
  | _ => simp [Instr.mnemonic] at hi

/-- Settles O10: `VALUE` 0 is what reset leaves, a read keeps it, and each read's answer at 0 is the one stated. -/
theorem afterResetEveryReadShowsZero : Obligations.AfterResetEveryReadShowsZero := by
  refine ⟨State.reset_value, fun s => ⟨_, step_of_pending_reset rfl, State.applyReset_value _ _⟩, fun s rest hs => ⟨?_, ?_⟩⟩
  · intro i hi hpos
    have hvalue := valueAfter_of_reading (List.mem_append_left [.rdstr] hi) 0 []
    have hne : i.mnemonic ≠ .ldstr := by intro he; simp [he] at hi
    refine ⟨_, step_given_cmd hne s rest, ?_⟩
    rw [hs, hvalue, answerTo_zero hi hpos]
    exact answered_complete (s.given rest) 0 {}
  · refine ⟨_, step_given_cmd (i := .rdstr) (by decide) s rest, ?_⟩
    rw [hs, ← renderString_zero]
    exact answered_complete (s.given rest) 0 { chars := renderString 0 }

/-! ### O36: what changes `VALUE` -/

/-- Settles O36: an idle step and an illegal word keep `VALUE`, and so does a legal command that is not a writing one. -/
theorem onlyResetAndTheWritingCommandsChangeValue : Obligations.OnlyResetAndTheWritingCommandsChangeValue := by
  intro s t h hne
  obtain ⟨-, rfl⟩ | ⟨rest, hp, -⟩ | ⟨cw, chars, rest, i, hp, hd, -, rfl⟩ | ⟨cw, rest, -, -, rfl⟩ := step_next_cases h
  · exact absurd rfl hne
  · exact .inl ⟨rest, hp⟩
  · exact .inr ⟨cw, chars, rest, i, hp, hd, mnemonic_mem_writing_of_valueAfter_ne hne⟩
  · exact absurd rfl hne

/-! ### O41: a copy by `RDU` and `LDU` -/

/-- Settles O41: the data of `RDU` is `VALUE`, and `LDU` stores its operand. -/
theorem copyFromOneBlockToAnotherIsExact : Obligations.CopyFromOneBlockToAnotherIsExact := by
  intro a b
  refine ⟨_, _, _, step_given_cmd (i := .rdu) (by decide) a [], rfl, step_given_cmd (by simp [Instr.mnemonic]) b [], ?_, rfl⟩
  exact responseWord_data .ok a.value

end Machine

end Sys2Proof

/-!
PROOFS. The family of the command port (spec/20_memory.md): O6, O33, O39. They go through `valueAfter` and `answerTo` of the family before:
the closed form of a step says which response it adds (O33), and that it only drops the performed event from what waits (O39).
-/

namespace Sys2Proof.Machine

/-! ### O33: the shape of the responses -/

/-- Table R38: the block has no status above 0x03. -/
theorem Response.status_toNat_le (st : Status) (d : Word) (cs : List Code) :
    (Response.status ⟨responseWord st d, cs⟩).toNat ≤ 3 := by
  rw [Response.status_mk]
  cases st <;> decide

/-- R37: an answer without output characters is well shaped when it carries data only with `OK`. -/
theorem wellShaped_without_chars {st : Status} {d : Word} (h : st = .ok ∨ d = 0) : Response.wellShaped ⟨responseWord st d, []⟩ := by
  refine ⟨Response.status_toNat_le st d [], fun hne => ⟨?_, rfl⟩, .inl rfl⟩
  rw [Response.data_mk]
  obtain rfl | hd := h
  · exact absurd (Response.status_mk .ok d []) hne
  · exact hd

/-- R46, R83: the response of `RDSTR`. -/
theorem wellShaped_renderString (v : Word) : Response.wellShaped ⟨responseWord .ok 0, renderString v⟩ := by
  have hstatus : Response.status ⟨responseWord .ok 0, renderString v⟩ = 0x00 := Response.status_mk .ok 0 _
  exact ⟨Response.status_toNat_le .ok 0 _, fun hne => absurd hstatus hne,
    .inr ⟨hstatus, Response.data_mk .ok 0 _, length_renderString v, mem_renderString v⟩⟩

/-- R36, R37, R38, R46: every command's response is well shaped. Only `BTST` and `RDS` have two outcomes, only `RDSTR` has characters. -/
theorem wellShaped_answerTo (i : Instr) (v : Word) :
    Response.wellShaped ⟨responseWord (answerTo i v).status (answerTo i v).data, (answerTo i v).chars⟩ := by
  cases i with
  | btst pos =>
    rw [answerTo_btst]
    split
    · exact wellShaped_without_chars (.inr rfl)
    · exact wellShaped_without_chars (.inl rfl)
  | rds =>
    rw [answerTo_rds]
    split
    · exact wellShaped_without_chars (.inr rfl)
    · exact wellShaped_without_chars (.inl rfl)
  | rdstr => exact wellShaped_renderString v
  | _ => exact wellShaped_without_chars (.inl rfl)

/-- R28, R36: a command completed with a well-shaped response keeps the invariant, whatever waits behind it. -/
theorem inv_complete {s : State} {rest : List HostEvent} {v : Word} {a : Answer} (hs : s.Inv)
    (ha : Response.wellShaped ⟨responseWord a.status a.data, a.chars⟩) : ((s.given rest).complete v a).Inv := by
  obtain ⟨-, hresponses⟩ := hs
  refine ⟨State.complete_input _ v a, fun r hr => ?_⟩
  rw [State.complete_responses, List.mem_append, List.mem_singleton] at hr
  obtain hold | rfl := hr
  · exact hresponses r hold
  · exact ha

/-- Settles O33: an idle step and a reset add no response and no input; a command clears `S` and adds one well-shaped response. -/
theorem everyStepKeepsTheInvariant : Obligations.EveryStepKeepsTheInvariant := by
  intro s t hs h
  obtain ⟨-, rfl⟩ | ⟨rest, -, rfl⟩ | ⟨cw, chars, rest, i, -, -, -, rfl⟩ | ⟨cw, rest, -, -, rfl⟩ := step_next_cases h
  · exact hs
  · exact hs
  · exact inv_complete hs (wellShaped_answerTo i s.value)
  · exact inv_complete hs (wellShaped_without_chars (.inr rfl))

/-! ### O39: what waits has no influence -/

/-- R25: the step at an event of the interface has one effect, the same whatever waits behind the event. -/
theorem step_given_paired {e : HostEvent} (he : e.isPaired = true) (s : State) :
    ∃ t : State, ∀ rest, step (s.given (e :: rest)) = .next (t.given rest) := by
  cases e with
  | reset => exact ⟨s.applyReset [], fun rest => step_of_pending_reset rfl⟩
  | command cw chars =>
    cases hd : decode cw with
    | some i =>
      rw [isPaired_of_decode_some hd] at he
      exact ⟨s.complete (valueAfter i s.value chars) (answerTo i s.value), fun rest => step_of_pending_legal rfl hd he⟩
    | none =>
      rw [isPaired_of_decode_none hd, List.isEmpty_iff] at he
      subst he
      exact ⟨s.complete s.value { status := .illegalCommand }, fun rest => step_of_pending_illegal rfl hd⟩

/-- R25 for a run, by induction on the events performed: one end state serves for every list that waits behind them. -/
theorem run_given_paired {first : List HostEvent} (hfirst : first.all HostEvent.isPaired = true) (s : State) :
    ∃ u : State, ∀ later, Host.Core.run Sys2Proof.core first.length (s.given (first ++ later)) = .next (u.given later) := by
  induction first generalizing s with
  | nil => exact ⟨s, fun later => rfl⟩
  | cons e es ih =>
    rw [List.all_cons, Bool.and_eq_true] at hfirst
    obtain ⟨he, hes⟩ := hfirst
    obtain ⟨t, hstep⟩ := step_given_paired he s
    obtain ⟨u, hrun⟩ := ih hes t
    exact ⟨u, fun later => (run_next (hstep (es ++ later)) es.length).trans (hrun later)⟩

/-- Settles O39: the end state of `run_given_paired`, once with nothing behind the first events and once with `later`. -/
theorem laterEventsDoNotAffectEarlierOnes : Obligations.LaterEventsDoNotAffectEarlierOnes := by
  intro first later s hfirst
  obtain ⟨u, hrun⟩ := run_given_paired hfirst s
  have halone := hrun []
  rw [List.append_nil] at halone
  exact ⟨u.given [], halone, hrun later⟩

/-! ### O6: the step is `exec` of the decoded command -/

/-- Settles O6: the step and `exec` at the presented state have one closed form. -/
theorem stepRunsTheDecodedCommand : Obligations.StepRunsTheDecodedCommand := by
  intro s cw chars rest i hp hd ht
  have hexec := exec_eq_complete (s := s.present chars rest) ht
  exact (step_of_pending_legal hp hd ht).trans hexec.symm

end Sys2Proof.Machine

/-!
PROOFS. The family of the encoding (spec/30_encoding.md): O1, O2, O3, O4, O5, O7, O31, O51, O52. The rows of the opcode map are described
once, by opcode, operand form and reserved bits; `decode` and `encode` are then inverse to each other, `decode` answers `none` exactly
where a reserved bit is set or the opcode is in no row, and the assembler's lines are the commands they stand for.
-/

namespace Sys2Proof

/-! ### The rows of the opcode map -/

/-- Table R32: the bits of `arg` that are reserved in each operand form. -/
def Form.reserved : Form → Word
  | .n => BitVec.allOnes 64
  | .q => 0
  | .w => 0xFFFFFFFF00000000
  | .b => 0xFFFFFFFFFFFFFFFE

/-- Table R39 against Table R32: a row's `mask` is `op` above the reserved bits of its form, its `match` is its opcode above zeros. -/
theorem row_of_mem_opcodeTable : ∀ r ∈ opcodeTable,
    r.op = opcode r.mnemonic ∧ r.mask = (0xFF#8 ++ r.form.reserved : CmdWord) ∧ r.pattern = (r.op ++ 0#64 : CmdWord) := by
  decide

theorem row_eq_of_mnemonic_eq : ∀ r ∈ opcodeTable, ∀ r' ∈ opcodeTable, r.mnemonic = r'.mnemonic → r = r' := by decide

theorem row_eq_of_op_eq {r r' : Row} (hr : r ∈ opcodeTable) (hr' : r' ∈ opcodeTable) (h : r.op = r'.op) : r = r' := by
  have hfind := find?_op_of_mem_opcodeTable r hr
  rw [h, find?_op_of_mem_opcodeTable r' hr'] at hfind
  exact (Option.some.inj hfind).symm

/-- R39, R40: a row covers a word when the word has its opcode and no bit that its form reserves. -/
theorem covers_iff {r : Row} (hr : r ∈ opcodeTable) (cw : CmdWord) :
    r.covers cw = true ↔ opField cw = r.op ∧ argField cw &&& r.form.reserved = 0 := by
  obtain ⟨-, hmask, hpattern⟩ := row_of_mem_opcodeTable r hr
  have h := covers_append r (opField cw) (argField cw) r.form.reserved hmask hpattern
  rw [opField_append_argField] at h
  simp [h]

/-- R42: the decoder at a word whose opcode is a row's. -/
theorem decode_of_op {r : Row} (hr : r ∈ opcodeTable) {cw : CmdWord} (hop : opField cw = r.op) :
    decode cw = if argField cw &&& r.form.reserved = 0 then some (instrOf r.mnemonic (argField cw)) else none := by
  obtain ⟨-, hmask, hpattern⟩ := row_of_mem_opcodeTable r hr
  have h := decode_append_of_row r.op (argField cw) r.form.reserved (find?_op_of_mem_opcodeTable r hr) rfl hmask hpattern
  rwa [← hop, opField_append_argField] at h

/-- R42: the decoder at a word whose opcode is in no row. -/
theorem decode_of_op_not_mem {cw : CmdWord} (h : opField cw ∉ opcodeTable.map Row.op) : decode cw = none := by
  have hrow : rowOf cw = none := List.find?_eq_none.2 fun r hr heq => h (List.mem_map.2 ⟨r, hr, beq_iff_eq.1 heq⟩)
  simp only [decode, hrow]

/-- R39, R42: a legal word is covered by a row, and is the row's command with the operand in `arg`. -/
theorem decode_eq_some_iff_exists_row (cw : CmdWord) (i : Instr) :
    decode cw = some i ↔ ∃ r ∈ opcodeTable, r.covers cw = true ∧ i = instrOf r.mnemonic (argField cw) := by
  constructor
  · intro h
    have hmem : opField cw ∈ opcodeTable.map Row.op := by
      by_contra hnot
      rw [decode_of_op_not_mem hnot] at h
      cases h
    obtain ⟨r, hr, hop⟩ := List.mem_map.1 hmem
    rw [decode_of_op hr hop.symm, Option.ite_none_right_eq_some, Option.some.injEq] at h
    obtain ⟨hclear, hi⟩ := h
    exact ⟨r, hr, (covers_iff hr cw).2 ⟨hop.symm, hclear⟩, hi.symm⟩
  · rintro ⟨r, hr, hcovers, rfl⟩
    obtain ⟨hop, hclear⟩ := (covers_iff hr cw).1 hcovers
    rw [decode_of_op hr hop, if_pos hclear]

/-! ### O1, O2, O5: `decode` and `encode` are inverse to each other -/

@[simp] theorem mnemonic_instrOf (m : Mnemonic) (arg : Word) : (instrOf m arg).mnemonic = m := by
  cases m <;> rfl

/-- R40: none of the bits of `arg` from `k` on is set, said with a mask and said with the field of these bits. -/
theorem and_allOnes_shiftLeft_eq_zero_iff (arg : Word) (k m : Nat) (hm : m = 64 - k) :
    arg &&& (BitVec.allOnes 64 <<< k) = 0 ↔ arg.extractLsb' k m = 0 := by
  subst hm
  constructor
  · intro h
    apply BitVec.eq_of_getLsbD_eq
    intro j hj
    have hbit := congrArg (fun v : Word => v.getLsbD (k + j)) h
    simpa [-BitVec.getLsbD_eq_getElem, -BitVec.reduceAllOnes, hj, show k + j < 64 by omega, show j < 64 by omega] using hbit
  · intro h
    apply BitVec.eq_of_getLsbD_eq
    intro j hj
    have hbit := congrArg (fun v : BitVec (64 - k) => v.getLsbD (j - k)) h
    rcases Nat.lt_or_ge j k with hlow | hhigh
    · simp [hlow]
    · have hfield : arg.getLsbD j = false := by
        simpa [show j - k < 64 - k by omega, show k + (j - k) = j by omega] using hbit
      simp [hfield]

theorem and_reserved_n (arg : Word) : arg &&& Form.n.reserved = 0 ↔ arg = 0 := by
  rw [show Form.n.reserved = BitVec.allOnes 64 from rfl, BitVec.and_allOnes]

theorem and_reserved_q (arg : Word) : arg &&& Form.q.reserved = 0 := BitVec.and_zero

theorem and_reserved_w (arg : Word) : arg &&& Form.w.reserved = 0 ↔ arg.extractLsb' 32 32 = 0 :=
  and_allOnes_shiftLeft_eq_zero_iff arg 32 32 rfl

theorem and_reserved_b (arg : Word) : arg &&& Form.b.reserved = 0 ↔ arg.extractLsb' 1 63 = 0 :=
  and_allOnes_shiftLeft_eq_zero_iff arg 1 63 rfl

/-- R33: an `arg` without reserved bits is its 32-bit operand, zero-extended. -/
theorem setWidth_extractLsb'_half {arg : Word} (h : arg &&& Form.w.reserved = 0) : (arg.extractLsb' 0 32).setWidth 64 = arg := by
  have hhigh := congrArg BitVec.toNat ((and_reserved_w arg).1 h)
  simp only [BitVec.extractLsb'_toNat, Nat.shiftRight_eq_div_pow, BitVec.ofNat_eq_ofNat, BitVec.toNat_zero] at hhigh
  apply BitVec.eq_of_toNat_eq
  simp only [BitVec.toNat_setWidth, BitVec.extractLsb'_toNat, Nat.shiftRight_zero]
  have := arg.isLt
  omega

/-- R33: an `arg` without reserved bits is its one-bit operand, zero-extended. -/
theorem setWidth_ofBool_getLsbD_zero {arg : Word} (h : arg &&& Form.b.reserved = 0) :
    (BitVec.ofBool (arg.getLsbD 0)).setWidth 64 = arg := by
  have hhigh := congrArg BitVec.toNat ((and_reserved_b arg).1 h)
  simp only [BitVec.extractLsb'_toNat, Nat.shiftRight_eq_div_pow, BitVec.ofNat_eq_ofNat, BitVec.toNat_zero] at hhigh
  apply BitVec.eq_of_toNat_eq
  have hlow : (arg.getLsbD 0).toNat = arg.toNat % 2 := by
    rw [BitVec.getLsbD, Nat.testBit_zero]
    rcases Nat.mod_two_eq_zero_or_one arg.toNat with h0 | h0 <;> simp [h0]
  simp only [BitVec.toNat_setWidth, BitVec.toNat_ofBool, hlow]
  have := arg.isLt
  omega

/-- R33: the operand of a form, put back into an `arg` field. -/
def Form.operand (f : Form) (arg : Word) : Word :=
  match f with
  | .n => 0
  | .q => arg
  | .w => (arg.extractLsb' 0 32).setWidth 64
  | .b => (BitVec.ofBool (arg.getLsbD 0)).setWidth 64

/-- R33: each row's command takes its operand by the row's form. -/
theorem operandField_instrOf {r : Row} (hr : r ∈ opcodeTable) (arg : Word) :
    operandField (instrOf r.mnemonic arg) = r.form.operand arg := by
  fin_cases hr <;> rfl

/-- R32: an `arg` without reserved bits holds its operand and nothing else. -/
theorem Form.operand_eq_self {f : Form} {arg : Word} (h : arg &&& f.reserved = 0) : f.operand arg = arg := by
  cases f with
  | n => exact ((and_reserved_n arg).1 h).symm
  | q => rfl
  | w => exact setWidth_extractLsb'_half h
  | b => exact setWidth_ofBool_getLsbD_zero h

/-- R41: a legal word is the word of the command it decodes to, since its opcode is the row's and its operand fills `arg`. -/
theorem encode_of_decode {cw : CmdWord} {i : Instr} (h : decode cw = some i) : encode i = cw := by
  obtain ⟨r, hr, hcovers, rfl⟩ := (decode_eq_some_iff_exists_row cw i).1 h
  obtain ⟨hop, hclear⟩ := (covers_iff hr cw).1 hcovers
  obtain ⟨hopcode, -⟩ := row_of_mem_opcodeTable r hr
  rw [encode, mnemonic_instrOf, ← hopcode, ← hop, operandField_instrOf hr, Form.operand_eq_self hclear, opField_append_argField]

/-- R39, R41, R42: `encode` and `decode` say the same of a command and a word. -/
theorem decode_eq_some_iff (cw : CmdWord) (i : Instr) : decode cw = some i ↔ encode i = cw :=
  ⟨encode_of_decode, fun h => h ▸ decode_encode i⟩

/-- Settles O1: every command's word is covered by its row, which the opcode search finds (`decode_encode`). -/
theorem decodeEncodeRoundTrip : Obligations.DecodeEncodeRoundTrip := decode_encode

/-- Settles O2: a word without reserved bits is rebuilt from its opcode and its operand. -/
theorem legalWordIsTheWordOfItsCommand : Obligations.LegalWordIsTheWordOfItsCommand :=
  fun _ _ => encode_of_decode

/-- Settles O5: six of the words are the encodings of their commands; the opcode of the seventh is in no row. -/
theorem wordsWrittenOutDecodeToTheirCommands : Obligations.WordsWrittenOutDecodeToTheirCommands := by
  unfold Obligations.WordsWrittenOutDecodeToTheirCommands
  simp only [decode_eq_some_iff]
  exact ⟨by decide, by decide, by decide, by decide, by decide, by decide, decode_of_op_not_mem (by decide)⟩

/-! ### O3: the opcode map -/

/-- R39: a row's words are the words of its command. -/
theorem exists_decode_mnemonic_iff {r : Row} (hr : r ∈ opcodeTable) (cw : CmdWord) :
    (∃ i, decode cw = some i ∧ i.mnemonic = r.mnemonic) ↔ r.covers cw = true := by
  constructor
  · rintro ⟨i, hd, hm⟩
    obtain ⟨r', hr', hcovers, rfl⟩ := (decode_eq_some_iff_exists_row cw i).1 hd
    rw [mnemonic_instrOf] at hm
    rwa [← row_eq_of_mnemonic_eq r' hr' r hr hm]
  · intro hcovers
    exact ⟨_, (decode_eq_some_iff_exists_row cw _).2 ⟨r, hr, hcovers, rfl⟩, mnemonic_instrOf _ _⟩

/-- R39: two rows that cover one word have its opcode, so they are one row. -/
theorem row_eq_of_covers {r r' : Row} (hr : r ∈ opcodeTable) (hr' : r' ∈ opcodeTable) {cw : CmdWord} (h : r.covers cw = true)
    (h' : r'.covers cw = true) : r = r' := by
  obtain ⟨hop, -⟩ := (covers_iff hr cw).1 h
  obtain ⟨hop', -⟩ := (covers_iff hr' cw).1 h'
  exact row_eq_of_op_eq hr hr' (hop.symm.trans hop')

/-- Settles O3: the fifteen rows written out are those of the opcode map. -/
theorem wordIsTheCommandOfARowExactlyWhenItMatches : Obligations.WordIsTheCommandOfARowExactlyWhenItMatches := by
  intro rows hrows
  have htable : rows = opcodeTable.map fun r => (r.mnemonic, r.mask, r.pattern) := hrows.trans rfl
  subst htable
  simp only [List.forall_mem_map]
  refine ⟨fun r hr cw => (exists_decode_mnemonic_iff hr cw).trans beq_iff_eq, fun r hr r' hr' cw h h' => ?_⟩
  rw [row_eq_of_covers hr hr' (beq_iff_eq.2 h) (beq_iff_eq.2 h')]

/-! ### O4: the illegal words -/

/-- Table R39: the opcodes of one operand form. -/
def opcodesOfForm (f : Form) : List (BitVec 8) := (opcodeTable.filter fun r => r.form = f).map Row.op

theorem mem_opcodesOfForm_iff (f : Form) (op : BitVec 8) : op ∈ opcodesOfForm f ↔ ∃ r ∈ opcodeTable, r.form = f ∧ r.op = op := by
  simp [opcodesOfForm, and_assoc]

/-- R40: a word is illegal when its opcode is in no row, or a bit is set that the form of its opcode reserves. -/
theorem decode_eq_none_iff (cw : CmdWord) :
    decode cw = none ↔ opField cw ∉ opcodeTable.map Row.op ∨
      ∃ f, opField cw ∈ opcodesOfForm f ∧ argField cw &&& f.reserved ≠ 0 := by
  constructor
  · intro h
    by_cases hmem : opField cw ∈ opcodeTable.map Row.op
    · obtain ⟨r, hr, hop⟩ := List.mem_map.1 hmem
      rw [decode_of_op hr hop.symm] at h
      refine .inr ⟨r.form, (mem_opcodesOfForm_iff _ _).2 ⟨r, hr, rfl, hop⟩, fun hclear => ?_⟩
      rw [if_pos hclear] at h
      cases h
    · exact .inl hmem
  · rintro (hnot | ⟨f, hmem, hset⟩)
    · exact decode_of_op_not_mem hnot
    · obtain ⟨r, hr, rfl, hop⟩ := (mem_opcodesOfForm_iff _ _).1 hmem
      rw [decode_of_op hr hop.symm, if_neg hset]

/-- R40: the reserved bits of a form, form by form. -/
theorem exists_form_reserved_ne_zero_iff (p : Form → Prop) (arg : Word) :
    (∃ f, p f ∧ arg &&& f.reserved ≠ 0) ↔
      (p .n ∧ arg ≠ 0) ∨ (p .w ∧ arg.extractLsb' 32 32 ≠ 0) ∨ (p .b ∧ arg.extractLsb' 1 63 ≠ 0) := by
  rw [ne_eq, ne_eq, ne_eq, ← and_reserved_n, ← and_reserved_w, ← and_reserved_b]
  constructor
  · rintro ⟨f, hp, hset⟩
    cases f with
    | n => exact .inl ⟨hp, hset⟩
    | q => exact absurd (and_reserved_q arg) hset
    | w => exact .inr (.inl ⟨hp, hset⟩)
    | b => exact .inr (.inr ⟨hp, hset⟩)
  · rintro (h | h | h) <;> exact ⟨_, h⟩

/-- R31: a field below bit 64 of the word is that field of `arg`. -/
theorem extractLsb'_argField (cw : CmdWord) (k m : Nat) (h : k + m ≤ 64) :
    (argField cw).extractLsb' k m = cw.extractLsb' k m :=
  BitVec.extractLsb'_extractLsb'_of_le h

namespace Machine

/-- Settles O4: the illegal words are those of `decode_eq_none_iff`, and the step answers one as R93 says. -/
theorem illegalWordsAreTheseAndAreAnsweredIllegalCommand : Obligations.IllegalWordsAreTheseAndAreAnsweredIllegalCommand := by
  intro cw
  refine ⟨?_, fun hd s rest => ⟨_, step_of_pending_illegal rfl hd, answered_complete (s.given rest) s.value _⟩⟩
  rw [decode_eq_none_iff, exists_form_reserved_ne_zero_iff fun f => opField cw ∈ opcodesOfForm f,
    extractLsb'_argField cw 32 32 (by decide), extractLsb'_argField cw 1 63 (by decide),
    ← List.mem_singleton (a := cw.extractLsb' 64 8) (b := 0x10)]
  rfl

/-! ### O7: a pair with the wrong number of characters -/

/-- R30, R31: how many characters a legal word asks for, read from the word itself. -/
theorem inputLength_of_decode {cw : CmdWord} {i : Instr} (h : decode cw = some i) :
    i.inputLength = if i.mnemonic = .ldstr then (argField cw).toNat else 0 := by
  rw [← encode_of_decode h, encode, argField_append]
  cases i with
  | ldstr len => rfl
  | _ => rfl

/-- R30 (log 4): a legal word with another number of characters is refused. -/
theorem step_of_pending_wrong_length {s : State} {cw : CmdWord} {chars : List Code} {rest : List HostEvent} {i : Instr}
    (h : s.pending = .command cw chars :: rest) (hd : decode cw = some i) (hlen : chars.length ≠ i.inputLength) :
    step s = .refused .notACommand := by
  simp [step, h, performCommand, hd, Instr.takesInput, hlen]

/-- R30, R93 (log 4): an illegal word with characters is refused. -/
theorem step_of_pending_illegal_with_input {s : State} {cw : CmdWord} {chars : List Code} {rest : List HostEvent}
    (h : s.pending = .command cw chars :: rest) (hd : decode cw = none) (hne : chars ≠ []) :
    step s = .refused .notACommand := by
  simp [step, h, performCommand, hd, hne]

/-- Settles O7: the length asked for is the one R30 reads from the word. -/
theorem stepRefusesAPairWithTheWrongInputLength : Obligations.StepRefusesAPairWithTheWrongInputLength := by
  intro s cw chars rest hp
  refine ⟨fun i hd hlen => ?_, step_of_pending_illegal_with_input hp⟩
  exact step_of_pending_wrong_length hp hd fun heq => hlen (heq.trans (inputLength_of_decode hd))

/-! ### O31: one response for each command -/

/-- R36, R83: only `RDSTR` has output characters. -/
theorem length_chars_answerTo (i : Instr) (v : Word) : (answerTo i v).chars.length = if i = .rdstr then 64 else 0 := by
  cases i with
  | rdstr => exact length_renderString v
  | btst pos =>
    rw [answerTo_btst]
    split <;> rfl
  | rds =>
    rw [answerTo_rds]
    split <;> rfl
  | _ => rfl

/-- Settles O31: a legal and an illegal word each complete with one response; the steps without a command are the idle one and reset. -/
theorem everyCommandGetsExactlyOneResponse : Obligations.EveryCommandGetsExactlyOneResponse := by
  refine ⟨fun s cw chars rest hpaired => ?_, fun s t h hnone => ?_⟩
  · cases hd : decode cw with
    | some i =>
      rw [isPaired_of_decode_some hd] at hpaired
      refine ⟨_, _, _, _, _, step_of_pending_legal rfl hd hpaired, answered_complete _ _ _, ?_⟩
      simp only [Option.some.injEq]
      exact length_chars_answerTo i s.value
    | none =>
      rw [isPaired_of_decode_none hd, List.isEmpty_iff] at hpaired
      subst hpaired
      exact ⟨_, _, _, _, _, step_of_pending_illegal rfl hd, answered_complete _ _ _, rfl⟩
  · obtain ⟨-, rfl⟩ | ⟨rest, -, rfl⟩ | ⟨cw, chars, rest, i, hp, -, -, -⟩ | ⟨cw, rest, hp, -, -⟩ := step_next_cases h
    · rfl
    · exact State.applyReset_responses s rest
    · exact absurd hp (hnone cw chars rest)
    · exact absurd hp (hnone cw [] rest)

end Machine

/-! ### O51: the assembler -/

/-- R44: an unsigned number in its range is the value of exactly one field, the number cut to it. -/
theorem exists_toNat_eq_iff {w : Nat} (n : Nat) (f : BitVec w → Instr) (i : Instr) (chars : List Code) :
    (∃ x : BitVec w, x.toNat = n ∧ i = f x ∧ chars = []) ↔
      decide (n < 2 ^ w) = true ∧ some (f (BitVec.ofNat w n)) = some i ∧ [] = chars := by
  rw [decide_eq_true_eq]
  constructor
  · rintro ⟨x, rfl, rfl, rfl⟩
    exact ⟨x.isLt, by rw [BitVec.ofNat_toNat, BitVec.setWidth_eq], rfl⟩
  · rintro ⟨hn, hi, rfl⟩
    exact ⟨_, (BitVec.toNat_ofNat _ _).trans (Nat.mod_eq_of_lt hn), (Option.some.inj hi).symm, rfl⟩

/-- R44: the same for a signed number and its two's-complement pattern. -/
theorem exists_toInt_eq_iff {w : Nat} (hw : 0 < w) (n : Int) (f : BitVec w → Instr) (i : Instr) (chars : List Code) :
    (∃ x : BitVec w, x.toInt = n ∧ i = f x ∧ chars = []) ↔
      signedInRange w n = true ∧ some (f (BitVec.ofInt w n)) = some i ∧ [] = chars := by
  rw [signedInRange, Bool.and_eq_true, decide_eq_true_eq, decide_eq_true_eq]
  constructor
  · rintro ⟨x, rfl, rfl, rfl⟩
    exact ⟨⟨BitVec.le_toInt x, BitVec.toInt_lt⟩, by rw [BitVec.ofInt_toInt], rfl⟩
  · rintro ⟨⟨hlow, hhigh⟩, hi, rfl⟩
    exact ⟨_, BitVec.toInt_ofInt_eq_self hw hlow hhigh, (Option.some.inj hi).symm, rfl⟩

/-- R44: `0` and `1` are the values of the bit of `PUSH`. -/
theorem exists_toNat_bool_eq_iff (b : Nat) (i : Instr) (chars : List Code) :
    (∃ bit : Bool, bit.toNat = b ∧ i = .push bit ∧ chars = []) ↔
      decide (b < 2) = true ∧ some (Instr.push (b == 1)) = some i ∧ [] = chars := by
  rw [decide_eq_true_eq]
  constructor
  · rintro ⟨bit, rfl, rfl, rfl⟩
    exact ⟨Bool.toNat_lt bit, by cases bit <;> rfl, rfl⟩
  · rintro ⟨hb, hi, rfl⟩
    refine ⟨b == 1, ?_, (Option.some.inj hi).symm, rfl⟩
    interval_cases b <;> rfl

/-- R44: a list of codes has the values of an ASCII text exactly when it is the text's list of codes. -/
theorem map_toNat_eq_iff_of_ascii {text : List Char} (hascii : ∀ c ∈ text, c.toNat < 128) (chars : List Code) :
    chars.map BitVec.toNat = text.map Char.toNat ↔ text.map codeOfChar = chars := by
  have hcodes : text.map Char.toNat = (text.map codeOfChar).map BitVec.toNat := by
    rw [List.map_map]
    refine List.map_congr_left fun c hc => ?_
    have := hascii c hc
    exact ((BitVec.toNat_ofNat _ _).trans (Nat.mod_eq_of_lt (by omega))).symm
  have hinj : Function.Injective (BitVec.toNat : Code → Nat) := fun x y => BitVec.eq_of_toNat_eq
  rw [hcodes, (List.map_injective_iff.2 hinj).eq_iff, eq_comm]

/-- R34, R44: a text stands for `LDSTR` exactly when its length fits `arg` and its characters are ASCII. -/
theorem standsFor_ldstr_iff (text : List Char) (i : Instr) (chars : List Code) :
    (AsmLine.ldstr text).standsFor i chars ↔
      (AsmLine.ldstr text).inRange = true ∧ (AsmLine.ldstr text).instr = some i ∧ (AsmLine.ldstr text).chars = chars := by
  have hrange : (AsmLine.ldstr text).inRange = true ↔ text.length < 2 ^ 64 ∧ ∀ c ∈ text, c.toNat < 128 := by
    simp only [AsmLine.inRange, Bool.and_eq_true, decide_eq_true_eq, List.all_eq_true]
  rw [hrange]
  constructor
  · rintro ⟨x, hlen, rfl, hchars, hascii⟩
    have hx : BitVec.ofNat 64 text.length = x := by rw [← hlen, BitVec.ofNat_toNat, BitVec.setWidth_eq]
    exact ⟨⟨hlen ▸ x.isLt, hascii⟩, congrArg (some ∘ Instr.ldstr) hx, (map_toNat_eq_iff_of_ascii hascii chars).1 hchars⟩
  · rintro ⟨⟨hlen, hascii⟩, hi, hchars⟩
    exact ⟨_, (BitVec.toNat_ofNat _ _).trans (Nat.mod_eq_of_lt hlen), (Option.some.inj hi).symm,
      (map_toNat_eq_iff_of_ascii hascii chars).2 hchars, hascii⟩

/-- R44, R45: a line stands for a command and its characters exactly when its operand is in its range, and they are then what the
assembler makes of the line. -/
theorem standsFor_iff (a : AsmLine) (i : Instr) (chars : List Code) :
    a.standsFor i chars ↔ a.inRange = true ∧ a.instr = some i ∧ a.chars = chars := by
  cases a with
  | ldu u => exact exists_toNat_eq_iff u .ldu i chars
  | shl n => exact exists_toNat_eq_iff n .shl i chars
  | shr n => exact exists_toNat_eq_iff n .shr i chars
  | shlv n => exact exists_toNat_eq_iff n .shlv i chars
  | shrv n => exact exists_toNat_eq_iff n .shrv i chars
  | lds n => exact exists_toInt_eq_iff (by decide) n .lds i chars
  | btst pos => exact exists_toInt_eq_iff (by decide) pos .btst i chars
  | push b => exact exists_toNat_bool_eq_iff b i chars
  | ldstr text => exact standsFor_ldstr_iff text i chars
  | word w => simp [AsmLine.standsFor, AsmLine.instr]
  | _ => simp [AsmLine.standsFor, AsmLine.inRange, AsmLine.instr, AsmLine.chars, Config.bsMin, Config.bsMax, eq_comm]

/-- R44: only a raw `.word` is no instruction. -/
theorem exists_instr_of_ne_word {a : AsmLine} (h : ∀ w, a ≠ .word w) : ∃ i, a.instr = some i := by
  cases a with
  | word w => exact absurd rfl (h w)
  | _ => exact ⟨_, rfl⟩

/-- R44: the word of a line that is an instruction is the instruction's. -/
theorem commandWord_of_instr {a : AsmLine} {i : Instr} (h : a.instr = some i) : a.commandWord = encode i := by
  cases a with
  | word w => cases h
  | _ => cases h; rfl

theorem assemble_eq_some_iff (a : AsmLine) (e : Machine.HostEvent) :
    assemble a = some e ↔ a.inRange = true ∧ e = .command a.commandWord a.chars := by
  rw [assemble, Option.ite_none_right_eq_some, Option.some.injEq, eq_comm (a := e)]

/-- R30, R44: the characters of a line are as many as its command takes. -/
theorem takesInput_of_standsFor {a : AsmLine} {i : Instr} {chars : List Code} (h : a.standsFor i chars) : i.takesInput chars = true := by
  cases a with
  | ldstr text =>
    obtain ⟨x, hlen, rfl, hchars, -⟩ := h
    have hlength := congrArg List.length hchars
    rw [List.length_map, List.length_map] at hlength
    exact beq_iff_eq.2 (hlength.trans hlen.symm)
  | word w => exact h.elim
  | clr | run | rdu | rds | rdw | rdstr | ldmin | ldmax =>
    obtain ⟨rfl, rfl⟩ := h
    rfl
  | _ =>
    obtain ⟨x, -, rfl, rfl⟩ := h
    rfl

/-- R44: an accepted `.word` is its own 72 bits. -/
theorem assemble_word_eq_some_iff (w : Nat) (e : Machine.HostEvent) :
    assemble (.word w) = some e ↔ ∃ cw : CmdWord, cw.toNat = w ∧ e = .command cw [] := by
  rw [assemble_eq_some_iff, AsmLine.inRange, decide_eq_true_eq]
  constructor
  · rintro ⟨hw, rfl⟩
    exact ⟨_, (BitVec.toNat_ofNat _ _).trans (Nat.mod_eq_of_lt hw), rfl⟩
  · rintro ⟨cw, rfl, rfl⟩
    exact ⟨cw.isLt, by rw [AsmLine.commandWord, AsmLine.chars, BitVec.ofNat_toNat, BitVec.setWidth_eq]⟩

/-- Settles O51: a line other than `.word` is accepted exactly as the pair of the command it stands for, and that pair decodes to it. -/
theorem assembledLinesAreLegalCommands : Obligations.AssembledLinesAreLegalCommands := by
  refine ⟨fun a e h hword => ?_, fun a i chars h => ?_, assemble_word_eq_some_iff⟩
  · obtain ⟨hrange, rfl⟩ := (assemble_eq_some_iff a e).1 h
    obtain ⟨i, hi⟩ := exists_instr_of_ne_word hword
    have hstands : a.standsFor i a.chars := (standsFor_iff a i a.chars).2 ⟨hrange, hi, rfl⟩
    refine ⟨_, _, i, rfl, ?_, takesInput_of_standsFor hstands, hstands⟩
    rw [commandWord_of_instr hi, decode_encode]
  · obtain ⟨hrange, hi, rfl⟩ := (standsFor_iff a i chars).1 h
    exact (assemble_eq_some_iff a _).2 ⟨hrange, by rw [commandWord_of_instr hi]⟩

/-! ### O52: the pseudo-instructions -/

namespace Machine

/-- Settles O52: the two words are those of `LDU BS_MIN` and `LDU BS_MAX`, and `LDU 0` and `CLR` have one closed form. -/
theorem pseudoInstructionsLoadTheConstants : Obligations.PseudoInstructionsLoadTheConstants := by
  refine ⟨by decide, by decide, by decide, fun s => ?_⟩
  have hmin := step_given_cmd (i := .ldu Config.bsMin) (by decide) s []
  have hmax := step_given_cmd (i := .ldu Config.bsMax) (by decide) s []
  exact ⟨_, _, hmin, step_given_cmd (i := .clr) (by decide) s [], rfl, hmax, rfl⟩

end Machine

end Sys2Proof

/-!
PROOFS. The family of the construction commands (spec/40_construct.md): O11, O12, O13, O14, O15, O16. A writing command ends in
one way, `ok()` after a write of `VALUE`; what is left for each command is which words are its own and what value it writes: the reading
of a two's-complement pattern for `LDS`, the closed form of the parsed string for `LDSTR`.
-/

namespace Sys2Proof

/-- R40, R42: the decoder on a word with the opcode of a row of the map. -/
theorem decode_op_append {r : Row} (hr : r ∈ opcodeTable) (arg : Word) :
    decode (r.op ++ arg) = if arg &&& r.form.reserved = 0 then some (instrOf r.mnemonic arg) else none := by
  have h := decode_of_op hr (opField_append r.op arg)
  rwa [argField_append] at h

/-- R40: a command without operand is its opcode above an `arg` of 0, and no other word of that opcode is legal. -/
theorem decode_op_append_of_form_n {r : Row} (hr : r ∈ opcodeTable) (hform : r.form = .n) (arg : Word) :
    decode (r.op ++ arg) = if arg = 0 then some (instrOf r.mnemonic arg) else none := by
  rw [decode_op_append hr, hform]
  exact if_congr (and_reserved_n arg) rfl rfl

/-- R30, R34: every string below the length limit is what the word of its own length asks for. -/
theorem takesInput_ldstr_length {chars : List Code} (h : chars.length < 2 ^ 64) :
    (Instr.ldstr (BitVec.ofNat 64 chars.length)).takesInput chars = true := by
  simp only [Instr.takesInput, Instr.inputLength, BitVec.toNat_ofNat, Nat.mod_eq_of_lt h, beq_self_eq_true]

namespace Machine

/-! ### How a writing command ends -/

/-- R36, R54: a write of `VALUE` and `ok()` are a command answered `OK` with data 0 and no characters. -/
theorem ok_setValue_answered (s : State) (v : Word) : ∃ t, ok (s.setValue v) = .next t ∧ Answered s t v 0x00 0 [] :=
  ⟨_, rfl, respond_answered s v .ok 0 []⟩

/-- Table R16: the seven writing commands answer `ok()`. -/
theorem answerTo_of_writing {i : Instr} (h : i.mnemonic ∈ ([.clr, .ldu, .lds, .ldstr, .push, .shl, .shr] : List Mnemonic)) (v : Word) :
    answerTo i v = {} := by
  cases i with
  | shlv | shrv | btst | run | rdu | rds | rdw | rdstr => simp [Instr.mnemonic] at h
  | _ => rfl

/-! ### O16: the construction commands together -/

/-- R54: what a construction command leaves in `VALUE` does not depend on what was there. -/
theorem valueAfter_of_construction {i : Instr} (h : i.mnemonic ∈ ([.clr, .ldu, .lds, .ldstr] : List Mnemonic)) (v w : Word)
    (input : List Code) : valueAfter i v input = valueAfter i w input := by
  cases i with
  | clr | ldu | lds | ldstr => rfl
  | _ => simp [Instr.mnemonic] at h

/-- Settles O16: the value written is the one the command gives from `VALUE` 0, and the answer is that of a writing command. -/
theorem constructionIsTotalAndNeverReadsValue : Obligations.ConstructionIsTotalAndNeverReadsValue := by
  intro cw chars i hd ht hi
  refine ⟨valueAfter i 0 chars, fun s rest => ⟨_, step_of_pending_legal rfl hd ht, ?_⟩⟩
  rw [State.given_value, valueAfter_of_construction hi s.value 0, answerTo_of_writing (List.mem_append_left [.push, .shl, .shr] hi)]
  exact answered_complete (s.given rest) _ {}

/-! ### O13: `LDS` -/

/-- R52: the pattern of `i`, read unsigned. -/
theorem toNat_ofInt_of_signed {i : Int} (hlow : -(2 ^ 63) ≤ i) (hhigh : i < 2 ^ 63) :
    ((BitVec.ofInt 64 i).toNat : Int) = if i < 0 then i + 2 ^ 64 else i := by
  rw [BitVec.toNat_ofInt]
  split <;> omega

/-- Settles O13: `LDS` stores its operand, whose unsigned reading is `toNat_ofInt_of_signed`. -/
theorem ldsStoresTheTwosComplementPattern : Obligations.LdsStoresTheTwosComplementPattern := by
  refine ⟨fun arg => decode_encode (.lds arg), fun s i hlow hhigh => ?_⟩
  obtain ⟨t, hexec, hans⟩ := ok_setValue_answered s (BitVec.ofInt 64 i)
  exact ⟨t, _, hexec, hans, toNat_ofInt_of_signed hlow hhigh⟩

/-! ### O14, O15: `LDSTR` -/

/-- R53: what `LDSTR` does with a string of the length its word says. -/
theorem exec_ldstr {s : State} {len : Word} (h : s.input.length = len.toNat) :
    exec (.ldstr len) s = ok (s.setValue (parseString s.input)) :=
  if_pos h

/-- Settles O14: `LDSTR` stores the parsed string, whose bits are `getLsbD_parseString`. -/
theorem ldstrParsesItsString : Obligations.LdstrParsesItsString := by
  refine ⟨fun arg => decode_encode (.ldstr arg), fun s len hlen => ?_⟩
  obtain ⟨t, hok, hans⟩ := ok_setValue_answered s (parseString s.input)
  refine ⟨t, parseString s.input, (exec_ldstr hlen).trans hok, hans, fun k hk => ?_⟩
  rw [getLsbD_parseString s.input k hk, Bool.and_eq_true, decide_eq_true_iff, beq_iff_eq, Config.ch1]

/-- R53 (c): bit `k` is the `k`-th character from the end, so 64 characters leave nothing to those before them. -/
theorem parseString_append (before : List Code) {last : List Code} (h : 64 ≤ last.length) :
    parseString (before ++ last) = parseString last := by
  apply BitVec.eq_of_getLsbD_eq
  intro k hk
  have hindex : (before ++ last).length - 1 - k - before.length = last.length - 1 - k := by
    rw [List.length_append]
    omega
  rw [getLsbD_parseString _ k hk, getLsbD_parseString _ k hk,
    List.getElem?_append_right (by rw [List.length_append]; omega), hindex, List.length_append]
  simp [show k < last.length by omega, show k < before.length + last.length by omega]

/-- The step at a presented string. -/
theorem step_given_ldstrCmd {chars : List Code} (h : chars.length < 2 ^ 64) (s : State) (rest : List HostEvent) :
    step (s.given (ldstrCmd chars :: rest)) = .next ((s.given rest).complete (parseString chars) {}) :=
  step_of_pending_legal (s := s.given (ldstrCmd chars :: rest)) rfl (decode_encode _) (takesInput_ldstr_length h)

/-- Settles O15: both strings are loaded, and they parse to one value (`parseString_append`). -/
theorem ldstrKeepsOnlyTheLast64Characters : Obligations.LdstrKeepsOnlyTheLast64Characters := by
  intro s before last hlast hlen
  refine ⟨_, _, step_given_ldstrCmd hlen s [], step_given_ldstrCmd (by omega) s [], ?_⟩
  exact parseString_append before hlast.ge

/-! ### O11, O12: `CLR` and `LDU` -/

/-- Settles O11: `CLR` is the first row of the map, of form N; it writes 0. -/
theorem clrSetsValueToZero : Obligations.ClrSetsValueToZero := by
  refine ⟨fun arg => ?_, fun s => ok_setValue_answered s 0⟩
  exact decode_op_append_of_form_n (List.mem_of_getElem? (l := opcodeTable) (i := 0) rfl) rfl arg

/-- Settles O12: every `arg` under the opcode of `LDU` is an operand, and that operand is written. -/
theorem lduStoresItsOperand : Obligations.LduStoresItsOperand :=
  ⟨fun arg => decode_encode (.ldu arg), ok_setValue_answered⟩

end Machine

end Sys2Proof

/-!
PROOFS. The family of the mutation and shift commands (spec/41_mutate.md): O17, O18, O19, O20, O21, O47. Two facts carry it: the words of
one opcode are a command's own exactly when the reserved bits of its form are 0, and `shl64` and `shr64` in closed form (R65), with
`shl64` as the fold of `push1`.
-/

namespace Sys2Proof

/-! ### The words of a command with an operand -/

/-- R40, R42: the words of one opcode whose `arg` carries the operand of `i` are the command `i`, or illegal by a reserved bit. -/
theorem decode_opcode_append {i : Instr} {r : Row} (hr : r ∈ opcodeTable) (hm : r.mnemonic = i.mnemonic) {arg : Word}
    (harg : r.form.operand arg = operandField i) :
    decode (opcode i.mnemonic ++ arg) = if arg &&& r.form.reserved = 0 then some i else none := by
  obtain ⟨hop, -⟩ := row_of_mem_opcodeTable r hr
  rw [← hm, ← hop, decode_op_append hr]
  refine ite_congr rfl (fun hclear => ?_) fun _ => rfl
  rw [← Form.operand_eq_self hclear, harg, hm, instrOf_operandField]

/-- R39: the five commands with an operand of form W. -/
theorem exists_row_of_form_w : ∀ m ∈ ([.shl, .shr, .shlv, .shrv, .btst] : List Mnemonic),
    ∃ r ∈ opcodeTable, r.mnemonic = m ∧ r.form = .w := by
  decide

/-- R32, R40: a command of form W takes `arg[31:0]`, and its word is legal only with `arg[63:32] = 0`. -/
theorem decode_opcode_append_half {i : Instr} (hi : i.mnemonic ∈ ([.shl, .shr, .shlv, .shrv, .btst] : List Mnemonic)) {n : Half}
    (hn : operandField i = n.setWidth 64) (high : Half) :
    decode (opcode i.mnemonic ++ high ++ n) = if high = 0 then some i else none := by
  obtain ⟨r, hr, hm, hform⟩ := exists_row_of_form_w _ hi
  have harg : r.form.operand (high ++ n) = operandField i := by
    rw [hform, hn]
    exact congrArg (BitVec.setWidth 64) BitVec.extractLsb'_append_eq_right
  have hreserved : (high ++ n : Word) &&& r.form.reserved = 0 ↔ high = 0 := by
    rw [hform, and_reserved_w, show (high ++ n : Word).extractLsb' 32 32 = high from BitVec.extractLsb'_append_eq_left]
  calc decode (opcode i.mnemonic ++ high ++ n)
      = decode (opcode i.mnemonic ++ (high ++ n)) := congrArg decode BitVec.append_assoc
    _ = if high = 0 then some i else none := (decode_opcode_append hr hm harg).trans (if_congr hreserved rfl rfl)

/-- R32, R40: `PUSH` takes `arg[0]`, and its word is legal only with `arg[63:1] = 0`. -/
theorem decode_push_append (high : BitVec 63) (b : Bool) :
    decode (0x10#8 ++ high ++ BitVec.ofBool b) = if high = 0 then some (.push b) else none := by
  have hlow : (high ++ BitVec.ofBool b : Word).getLsbD 0 = b := BitVec.getLsbD_concat_zero
  have harg : Form.b.operand (high ++ BitVec.ofBool b) = operandField (.push b) := by
    rw [Form.operand, hlow, operandField]
  have hreserved : (high ++ BitVec.ofBool b : Word) &&& Form.b.reserved = 0 ↔ high = 0 := by
    rw [and_reserved_b, show (high ++ BitVec.ofBool b : Word).extractLsb' 1 63 = high from BitVec.extractLsb'_append_eq_left]
  have hrow := List.mem_of_getElem? (l := opcodeTable) (i := 4) rfl
  calc decode (0x10#8 ++ high ++ BitVec.ofBool b)
      = decode (0x10#8 ++ (high ++ BitVec.ofBool b)) := congrArg decode BitVec.append_assoc
    _ = if high = 0 then some (.push b) else none :=
        (decode_opcode_append (i := .push b) hrow rfl harg).trans (if_congr hreserved rfl rfl)

namespace Machine

/-! ### The shifts and the push in closed form (R60, R65) -/

theorem toNat_shl64 (v : Word) (n : Nat) : (shl64 v n).toNat = if n ≤ 63 then v.toNat * 2 ^ n % 2 ^ 64 else 0 := by
  rw [shl64_eq_shiftLeft]
  split
  · rw [BitVec.toNat_shiftLeft, Nat.shiftLeft_eq]
  · rw [BitVec.shiftLeft_eq_zero (by omega), BitVec.toNat_zero]

theorem toNat_shr64 (v : Word) (n : Nat) : (shr64 v n).toNat = if n ≤ 63 then v.toNat / 2 ^ n else 0 := by
  rw [shr64_eq_ushiftRight]
  split
  · rw [BitVec.toNat_ushiftRight, Nat.shiftRight_eq_div_pow]
  · rw [BitVec.ushiftRight_eq_zero (by omega), BitVec.toNat_zero]

theorem getLsbD_shl64 (v : Word) (n : Nat) {k : Nat} (hk : k < 64) :
    (shl64 v n).getLsbD k = (decide (n ≤ 63 ∧ n ≤ k) && v.getLsbD (k - n)) := by
  rw [shl64_eq_shiftLeft, BitVec.getLsbD_shiftLeft, decide_eq_true hk, Bool.true_and, ← decide_not]
  congr 1
  exact decide_eq_decide.2 (by omega)

/-- R62: the vacated high bits are those read beyond bit 63 of the old value. -/
theorem getLsbD_shr64 (v : Word) (n k : Nat) :
    (shr64 v n).getLsbD k = (decide (n ≤ 63 ∧ k + n ≤ 63) && v.getLsbD (k + n)) := by
  rw [shr64_eq_ushiftRight, BitVec.getLsbD_ushiftRight, Nat.add_comm n k]
  rcases Nat.lt_or_ge (k + n) 64 with hin | hout
  · rw [decide_eq_true (by omega), Bool.true_and]
  · rw [BitVec.getLsbD_of_ge v _ hout, Bool.and_false]

theorem push1_false_eq_shiftLeft (v : Word) : push1 v false = v <<< 1 := by
  apply BitVec.eq_of_toNat_eq
  rw [toNat_push1, BitVec.toNat_shiftLeft, Nat.shiftLeft_eq, Bool.toNat_false, Nat.add_zero, pow_one, Nat.mul_comm]

/-- R61: a shift left by `n` is `n` pushes of 0, each a shift by one. -/
theorem foldl_push1_replicate_false (v : Word) (n : Nat) : (List.replicate n false).foldl push1 v = shl64 v n := by
  induction n generalizing v with
  | zero => rw [shl64_eq_shiftLeft, BitVec.shiftLeft_zero, List.replicate_zero, List.foldl_nil]
  | succ n ih =>
    rw [List.replicate_succ, List.foldl_cons, ih, shl64_eq_shiftLeft, shl64_eq_shiftLeft, push1_false_eq_shiftLeft,
      ← BitVec.shiftLeft_add, Nat.add_comm]

/-! ### O17, O18, O19: the commands that write `VALUE` -/

/-- Settles O17: `PUSH b` writes `push1`, whose value and bits are `toNat_push1` and `getLsbD_push1`. -/
theorem pushShiftsLeftByOneAndInsertsItsBit : Obligations.PushShiftsLeftByOneAndInsertsItsBit := by
  refine ⟨decode_push_append, fun s b => ?_⟩
  obtain ⟨t, hexec, hans⟩ := ok_setValue_answered s (push1 s.value b)
  refine ⟨t, _, hexec, hans, toNat_push1 s.value b, getLsbD_push1 s.value b 0, fun k hk => ?_⟩
  rw [getLsbD_push1, if_neg (Nat.succ_ne_zero k), decide_eq_true (by omega), Bool.true_and, Nat.add_sub_cancel]

/-- Settles O18: `SHL n` writes `shl64`. -/
theorem shlShiftsValueLeft : Obligations.ShlShiftsValueLeft := by
  refine ⟨fun hi n => decode_opcode_append_half (i := .shl n) (by simp [Instr.mnemonic]) rfl hi, fun s n => ?_⟩
  obtain ⟨t, hexec, hans⟩ := ok_setValue_answered s (shl64 s.value (shiftAmount n))
  exact ⟨t, _, hexec, hans, toNat_shl64 _ _, fun k hk => getLsbD_shl64 _ _ hk⟩

/-- Settles O19: `SHR n` writes `shr64`. -/
theorem shrShiftsValueRight : Obligations.ShrShiftsValueRight := by
  refine ⟨fun hi n => decode_opcode_append_half (i := .shr n) (by simp [Instr.mnemonic]) rfl hi, fun s n => ?_⟩
  obtain ⟨t, hexec, hans⟩ := ok_setValue_answered s (shr64 s.value (shiftAmount n))
  exact ⟨t, _, hexec, hans, toNat_shr64 _ _, fun k _ => getLsbD_shr64 _ _ k⟩

/-! ### O20, O21: the commands that return the shifted value -/

/-- R36, R37: `ok(d)` is a command answered `OK` with data `d` and no characters, `VALUE` kept. -/
theorem okData_answered (s : State) (d : Word) : ∃ t, okData d s = .next t ∧ Answered s t s.value 0x00 d [] :=
  ⟨_, rfl, respond_answered s s.value .ok d []⟩

/-- Settles O20: the data of `SHLV n` is `shl64`. -/
theorem shlvReturnsTheLeftShiftedValue : Obligations.ShlvReturnsTheLeftShiftedValue := by
  refine ⟨fun hi n => decode_opcode_append_half (i := .shlv n) (by simp [Instr.mnemonic]) rfl hi, fun s n => ?_⟩
  obtain ⟨t, hexec, hans⟩ := okData_answered s (shl64 s.value (shiftAmount n))
  exact ⟨t, _, hexec, hans, toNat_shl64 _ _⟩

/-- Settles O21: the data of `SHRV n` is `shr64`. -/
theorem shrvReturnsTheRightShiftedValue : Obligations.ShrvReturnsTheRightShiftedValue := by
  refine ⟨fun hi n => decode_opcode_append_half (i := .shrv n) (by simp [Instr.mnemonic]) rfl hi, fun s n => ?_⟩
  obtain ⟨t, hexec, hans⟩ := okData_answered s (shr64 s.value (shiftAmount n))
  exact ⟨t, _, hexec, hans, toNat_shr64 _ _⟩

/-! ### O47: `SHL n` as `n` pushes of 0 -/

/-- R60: a run of pushes folds `push1` over their bits, by induction on the bits. -/
theorem run_given_pushes (bits : List Bool) (s : State) : ∃ u : State,
    Host.Core.run Sys2Proof.core bits.length (s.given (bits.map fun b => cmd (.push b))) = .next u ∧
      u.value = bits.foldl push1 s.value := by
  induction bits generalizing s with
  | nil => exact ⟨s.given [], rfl, rfl⟩
  | cons b bits ih =>
    have hstep := step_given_cmd (i := .push b) (by simp [Instr.mnemonic]) s (bits.map fun b => cmd (.push b))
    obtain ⟨u, hrun, hu⟩ := ih (s.complete (push1 s.value b) {})
    exact ⟨u, (run_next hstep bits.length).trans hrun, hu⟩

/-- Settles O47: both leave `shl64`, the pushes by `foldl_push1_replicate_false`. -/
theorem shlIsRepeatedPushOfZero : Obligations.ShlIsRepeatedPushOfZero := by
  intro s n
  have hstep := step_given_cmd (i := .shl n) (by simp [Instr.mnemonic]) s []
  obtain ⟨u, hrun, hu⟩ := run_given_pushes (List.replicate n.toNat false) s
  rw [List.length_replicate, List.map_replicate] at hrun
  rw [foldl_push1_replicate_false] at hu
  exact ⟨_, u, hstep, hrun, hu.symm⟩

end Machine

end Sys2Proof

/-!
PROOFS. The family of the query commands (spec/42_query.md): O22, O23, O24. `BTST` is one case split on the legality of its position, each
side with its own answer, and an answer has one status; the data of `RUN` is where the loop of R71 stops.
-/

namespace Sys2Proof

namespace Machine

/-! ### O22, O23: `BTST` -/

/-- R70: what the model checks of a position is what the rule says of `pos` read as two's complement. -/
theorem positionInvalid_iff (pos : Half) : positionInvalid (bitPosition pos) = true ↔ pos.toInt < 0 ∨ pos.toInt > 63 := by
  rw [positionInvalid, Bool.or_eq_true]
  exact or_congr decide_eq_true_iff decide_eq_true_iff

/-- R70: the two readings of an illegal position; the negative ones are those from `2^31` up when read unsigned. -/
theorem toInt_outside_iff_le_toNat (pos : Half) : (pos.toInt < 0 ∨ pos.toInt > 63) ↔ 64 ≤ pos.toNat := by
  have hlt := pos.isLt
  rw [BitVec.toInt_eq_toNat_cond]
  split <;> omega

/-- R37: a Boolean as data is 1 or 0. -/
theorem dataOfBool_eq_ite (b : Bool) : dataOfBool b = if b then 1 else 0 := by
  cases b <;> rfl

/-- R96: `raise` is a command answered with its status, data 0 and no characters, `VALUE` kept. -/
theorem raise_answered (s : State) (st : Status) : ∃ t, raise st s = .next t ∧ Answered s t s.value st.code 0 [] :=
  ⟨_, rfl, respond_answered s s.value st 0 []⟩

theorem exec_btst_of_legal (s : State) {pos : Half} (h : ¬ (pos.toInt < 0 ∨ pos.toInt > 63)) :
    ∃ t, exec (.btst pos) s = .next t ∧ Answered s t s.value 0x00 (if s.value.getLsbD pos.toInt.toNat then 1 else 0) [] := by
  have hexec : exec (.btst pos) s = okData (dataOfBool (bitAt s.value (bitPosition pos))) s :=
    if_neg (mt (positionInvalid_iff pos).1 h)
  rw [hexec, dataOfBool_eq_ite]
  exact okData_answered s _

theorem exec_btst_of_illegal (s : State) {pos : Half} (h : pos.toInt < 0 ∨ pos.toInt > 63) :
    ∃ t, exec (.btst pos) s = .next t ∧ Answered s t s.value 0x02 0 [] := by
  have hexec : exec (.btst pos) s = raise .invalidArgument s := if_pos ((positionInvalid_iff pos).2 h)
  rw [hexec]
  exact raise_answered s .invalidArgument

/-- R36: a command adds one response, so two accounts of one answer give it one status. -/
theorem Answered.status_unique {s t : State} {v₁ v₂ d₁ d₂ : Word} {st₁ st₂ : BitVec 8} {cs₁ cs₂ : List Code}
    (h₁ : Answered s t v₁ st₁ d₁ cs₁) (h₂ : Answered s t v₂ st₂ d₂ cs₂) : st₁ = st₂ := by
  obtain ⟨-, -, -, r₁, hr₁, hst₁, -⟩ := h₁
  obtain ⟨-, -, -, r₂, hr₂, hst₂, -⟩ := h₂
  have hlast : [r₁] = [r₂] := List.append_cancel_left (hr₁.symm.trans hr₂)
  obtain rfl := List.singleton_inj.1 hlast
  exact hst₁.symm.trans hst₂

/-- Settles O22: `BTST` is of form W; `exec_btst_of_legal` and `exec_btst_of_illegal` are its two answers. -/
theorem btstReturnsTheBitAtALegalPosition : Obligations.BtstReturnsTheBitAtALegalPosition := by
  refine ⟨fun hi pos => decode_opcode_append_half (i := .btst pos) (by simp [Instr.mnemonic]) rfl hi, fun s pos hlow hhigh => ?_,
    fun s pos => exec_btst_of_illegal s⟩
  exact exec_btst_of_legal s (by omega)

/-- Settles O23: at a legal position the status is `OK`, which no other account of the answer can contradict. -/
theorem btstRaisesInvalidArgumentExactlyOutsideZeroTo63 : Obligations.BtstRaisesInvalidArgumentExactlyOutsideZeroTo63 := by
  intro s pos
  refine ⟨toInt_outside_iff_le_toNat pos, fun ⟨t, hexec, hans⟩ => ?_, exec_btst_of_illegal s⟩
  by_contra hlegal
  obtain ⟨u, hexec', hans'⟩ := exec_btst_of_legal s hlegal
  obtain rfl : t = u := Host.Outcome.next.inj (hexec.symm.trans hexec')
  exact absurd (hans.status_unique hans') (by decide)

/-! ### O24: `RUN` -/

/-- R71, R72: the loop started at bit 0 with 64 positions to look at. -/
theorem onesRun_spec (v : Word) :
    onesRun v ≤ 64 ∧ (∀ j < onesRun v, v.getLsbD j = true) ∧ (onesRun v = 64 ∨ v.getLsbD (onesRun v) = false) := by
  obtain ⟨-, hle, hones, hstop⟩ := onesRunFrom_spec v 64 0
  rw [Nat.zero_add] at hle hstop
  exact ⟨hle, fun j => hones j (Nat.zero_le j), hstop⟩

/-- Settles O24: `RUN` is of form N, the row at place 10 of the map; it returns `onesRun`. -/
theorem runCountsTheOnesFromBitZero : Obligations.RunCountsTheOnesFromBitZero := by
  refine ⟨fun arg => ?_, fun s => ?_⟩
  · exact decode_op_append_of_form_n (List.mem_of_getElem? (l := opcodeTable) (i := 10) rfl) rfl arg
  · obtain ⟨t, hexec, hans⟩ := okData_answered s (dataOfCount (onesRun s.value))
    exact ⟨t, onesRun s.value, hexec, hans, onesRun_spec s.value⟩

end Machine

end Sys2Proof

/-!
PROOFS. The family of the conversions out (spec/43_convert.md): O25, O26, O27, O28, O29. `RDS` is one case split on the range of `VALUE`,
each side with its own answer; the data of `RDW` is a sign extension; `RDSTR` ends in `ok_str(T)` with the rendered string.
-/

namespace Sys2Proof

/-- R39: the four conversions out have no operand. -/
theorem exists_row_of_conversion : ∀ m ∈ ([.rdu, .rds, .rdw, .rdstr] : List Mnemonic),
    ∃ r ∈ opcodeTable, r.op = opcode m ∧ r.mnemonic = m ∧ r.form = .n := by
  decide

/-- R40: the word of a conversion out is legal only with `arg = 0`. -/
theorem decode_conversion_append {m : Mnemonic} (hm : m ∈ ([.rdu, .rds, .rdw, .rdstr] : List Mnemonic)) (arg : Word) :
    decode (opcode m ++ arg) = if arg = 0 then some (instrOf m arg) else none := by
  obtain ⟨r, hr, hop, rfl, hform⟩ := exists_row_of_conversion m hm
  rw [← hop]
  exact decode_op_append_of_form_n hr hform arg

namespace Machine

/-! ### O26, O27: `RDS` -/

/-- R81, R91: what the model checks of `VALUE` is what the rule says. -/
theorem exceedsSigned_iff (v : Word) : exceedsSigned v = true ↔ 2 ^ 63 - 1 < v.toNat := decide_eq_true_iff

/-- R81: the numbers that do not fit are those with the sign bit set. -/
theorem lt_toNat_iff_getLsbD_63 (v : Word) : 2 ^ 63 - 1 < v.toNat ↔ v.getLsbD 63 = true := by
  have hmsb : v.getLsbD 63 = decide (2 ^ 63 ≤ v.toNat) := v.msb_eq_getLsbD_last.symm.trans v.msb_eq_decide
  rw [hmsb, decide_eq_true_iff]
  omega

/-- R7: below `2^63` the two readings of a pattern are one number. -/
theorem toInt_eq_toNat_of_fits {v : Word} (h : ¬ 2 ^ 63 - 1 < v.toNat) : v.toInt = (v.toNat : Int) :=
  BitVec.toInt_eq_toNat_of_lt (by omega)

theorem exec_rds_of_fits {s : State} (h : ¬ 2 ^ 63 - 1 < s.value.toNat) :
    ∃ t, exec .rds s = .next t ∧ Answered s t s.value 0x00 s.value [] := by
  have hexec : exec .rds s = okData s.value s := if_neg (mt (exceedsSigned_iff s.value).1 h)
  rw [hexec]
  exact okData_answered s s.value

theorem exec_rds_of_exceeds {s : State} (h : 2 ^ 63 - 1 < s.value.toNat) :
    ∃ t, exec .rds s = .next t ∧ Answered s t s.value 0x01 0 [] := by
  have hexec : exec .rds s = raise .overflow s := if_pos ((exceedsSigned_iff s.value).2 h)
  rw [hexec]
  exact raise_answered s .overflow

/-- Settles O26: `RDS` is of form N; `exec_rds_of_fits` and `exec_rds_of_exceeds` are its two answers. -/
theorem rdsReturnsAValueThatFits : Obligations.RdsReturnsAValueThatFits := by
  refine ⟨decode_conversion_append (m := .rds) (by decide), fun s hle => ?_, fun s => exec_rds_of_exceeds⟩
  have hfits := Nat.not_lt.2 hle
  obtain ⟨t, hexec, hans⟩ := exec_rds_of_fits hfits
  exact ⟨t, _, hexec, hans, rfl, toInt_eq_toNat_of_fits hfits⟩

/-- Settles O27: of a `VALUE` that fits the status is `OK`, which no other account of the answer can contradict. -/
theorem rdsRaisesOverflowExactlyWhenBit63IsSet : Obligations.RdsRaisesOverflowExactlyWhenBit63IsSet := by
  intro s
  have hsign := lt_toNat_iff_getLsbD_63 s.value
  refine ⟨hsign, Iff.trans ⟨fun ⟨t, hexec, hans⟩ => ?_, exec_rds_of_exceeds⟩ hsign⟩
  by_contra hfits
  obtain ⟨u, hexec', hans'⟩ := exec_rds_of_fits hfits
  obtain rfl : t = u := Host.Outcome.next.inj (hexec.symm.trans hexec')
  exact absurd (hans.status_unique hans') (by decide)

/-! ### O28: `RDW` -/

/-- R37: sign extension to the data field keeps the number. -/
theorem toInt_dataOfSigned (r : Half) : (dataOfSigned r).toInt = r.toInt :=
  BitVec.toInt_signExtend_of_le (by decide)

/-- R37: the bits of a 32-bit result as data are its own, then copies of its sign bit. -/
theorem getLsbD_dataOfSigned (r : Half) {k : Nat} (hk : k < 64) :
    (dataOfSigned r).getLsbD k = if k < 32 then r.getLsbD k else r.getLsbD 31 := by
  rw [dataOfSigned, BitVec.getLsbD_signExtend, decide_eq_true hk, Bool.true_and, BitVec.msb_eq_getLsbD_last]

theorem extractLsb'_dataOfSigned (r : Half) : (dataOfSigned r).extractLsb' 0 32 = r := by
  apply BitVec.eq_of_getLsbD_eq
  intro k hk
  rw [BitVec.getLsbD_extractLsb', decide_eq_true hk, Bool.true_and, Nat.zero_add, getLsbD_dataOfSigned r (by omega), if_pos hk]

/-- Settles O28: `RDW` is of form N; it returns the low half through `dataOfSigned`. -/
theorem rdwReturnsTheLowHalfSigned : Obligations.RdwReturnsTheLowHalfSigned := by
  refine ⟨decode_conversion_append (m := .rdw) (by decide), fun s => ?_⟩
  obtain ⟨t, hexec, hans⟩ := okData_answered s (dataOfSigned (s.value.extractLsb' 0 32))
  refine ⟨t, _, hexec, hans, toInt_dataOfSigned _, extractLsb'_dataOfSigned _, fun k hlow hhigh => ?_⟩
  have hsign : (s.value.extractLsb' 0 32).getLsbD 31 = s.value.getLsbD 31 := BitVec.getLsbD_extractLsb' ..
  rw [getLsbD_dataOfSigned _ hhigh, if_neg (Nat.not_lt.2 hlow), hsign]

/-! ### O29: `RDSTR` -/

/-- R36, R46: `ok_str(T)` is a command answered `OK` with data 0 and the characters `T`, `VALUE` kept. -/
theorem okString_answered (s : State) (chars : List Code) : ∃ t, okString chars s = .next t ∧ Answered s t s.value 0x00 0 chars :=
  ⟨_, rfl, respond_answered s s.value .ok 0 chars⟩

/-- Settles O29: `RDSTR` is of form N; the characters are those of `renderString`. -/
theorem rdstrRendersValueMostSignificantBitFirst : Obligations.RdstrRendersValueMostSignificantBitFirst := by
  refine ⟨decode_conversion_append (m := .rdstr) (by decide), fun s => ?_⟩
  obtain ⟨t, hexec, hans⟩ := okString_answered s (renderString s.value)
  exact ⟨t, _, hexec, hans, length_renderString s.value, mem_renderString s.value, getElem?_renderString s.value⟩

/-! ### O25: `RDU` -/

/-- Settles O25: `RDU` is of form N; it returns `VALUE`. -/
theorem rduReturnsValue : Obligations.RduReturnsValue :=
  ⟨decode_conversion_append (m := .rdu) (by decide), fun s => okData_answered s s.value⟩

end Machine

end Sys2Proof

/-!
PROOFS. The family of the laws that tie the commands together (spec/44_laws.md): O37, O40, O42, O43, O44, O45, O46, O48, O49, O50. A law
is about two commands in a row (`run_event_then_cmd`), about a list of pushes, which fold `push1` over their bits, or about a list of
commands that keep `VALUE`. What is left of each is a fact about values: shifts undo each other up to the bits lost, a rendered string
parses back, pushed bits are the digits of a number.
-/

namespace Sys2Proof.Machine

/-! ### Two commands in a row -/

/-- R36: the response that carries an answer. -/
def Answer.response (a : Answer) : Response := ⟨responseWord a.status a.data, a.chars⟩

@[simp] theorem Answer.response_status (a : Answer) : a.response.word.extractLsb' 64 8 = a.status.code :=
  responseWord_status a.status a.data

@[simp] theorem Answer.response_data (a : Answer) : a.response.word.extractLsb' 0 64 = a.data :=
  responseWord_data a.status a.data

@[simp] theorem Answer.response_chars (a : Answer) : a.response.chars = a.chars := rfl

/-- R25: a command behind an event that leaves `v` and answers `a` reads `v`, and its response comes second. -/
theorem run_event_then_cmd {e : HostEvent} {s : State} {v : Word} {a : Answer} {j : Instr}
    (h : ∀ rest, step (s.given (e :: rest)) = .next ((s.given rest).complete v a)) (hj : j.mnemonic ≠ .ldstr) :
    ∃ t : State, Host.Core.run Sys2Proof.core 2 (s.given [e, cmd j]) = .next t ∧ t.value = valueAfter j v [] ∧
      t.responses = s.responses ++ [a.response, (answerTo j v).response] := by
  have hsecond := step_given_cmd hj (s.complete v a) []
  refine ⟨_, (run_next (h [cmd j]) 1).trans (run_next hsecond 0), rfl, ?_⟩
  rw [State.complete_responses, State.given_responses, State.complete_responses, List.append_assoc]
  rfl

/-- R25: the same for two commands without input characters. -/
theorem run_cmd_then_cmd {i j : Instr} (hi : i.mnemonic ≠ .ldstr) (hj : j.mnemonic ≠ .ldstr) (s : State) :
    ∃ t : State, Host.Core.run Sys2Proof.core 2 (s.given [cmd i, cmd j]) = .next t ∧
      t.value = valueAfter j (valueAfter i s.value []) [] ∧
      t.responses = s.responses ++ [(answerTo i s.value).response, (answerTo j (valueAfter i s.value [])).response] :=
  run_event_then_cmd (step_given_cmd hi s) hj

/-! ### O37: reads and illegal words -/

/-- R122: the step at a reading command or an illegal word completes with one response and keeps `VALUE`. -/
theorem step_given_keeps_value {cw : CmdWord} (h : decode cw = none ∨ ∃ i, decode cw = some i ∧
      i.mnemonic ∈ ([.shlv, .shrv, .btst, .run, .rdu, .rds, .rdw, .rdstr] : List Mnemonic)) (s : State) :
    ∃ a, ∀ rest, step (s.given (.command cw [] :: rest)) = .next ((s.given rest).complete s.value a) := by
  obtain hd | ⟨i, hd, hi⟩ := h
  · exact ⟨_, fun rest => step_of_pending_illegal rfl hd⟩
  · have hne : i.mnemonic ≠ .ldstr := by intro he; simp [he] at hi
    refine ⟨answerTo i s.value, fun rest => ?_⟩
    rw [step_of_pending_legal rfl hd (takesInput_nil_of_ne_ldstr hne), valueAfter_of_reading hi]
    rfl

/-- Settles O37, by induction on the words: each step keeps `VALUE` and adds one response. -/
theorem readsAndIllegalWordsDoNotDisturbValue : Obligations.ReadsAndIllegalWordsDoNotDisturbValue := by
  intro words
  induction words with
  | nil => exact fun s _ => ⟨s.given [], rfl, rfl, rfl, rfl⟩
  | cons cw words ih =>
    intro s hwords
    obtain ⟨hcw, hrest⟩ := List.forall_mem_cons.1 hwords
    obtain ⟨a, hstep⟩ := step_given_keeps_value hcw s
    obtain ⟨t, hrun, hvalue, hpending, hlength⟩ := ih (s.complete s.value a) hrest
    refine ⟨t, (run_next (hstep _) words.length).trans hrun, hvalue, hpending, ?_⟩
    rw [hlength, State.complete_responses, List.length_append, List.length_singleton, List.length_cons]
    omega

/-! ### O42: a signed number loaded and read -/

theorem answerTo_rds_of_fits {v : Word} (h : ¬ 2 ^ 63 - 1 < v.toNat) : answerTo .rds v = { data := v } :=
  (answerTo_rds v).trans (if_neg (mt (exceedsSigned_iff v).1 h))

theorem answerTo_rds_of_exceeds {v : Word} (h : 2 ^ 63 - 1 < v.toNat) : answerTo .rds v = { status := .overflow } :=
  (answerTo_rds v).trans (if_pos ((exceedsSigned_iff v).2 h))

/-- R52, R81: the patterns above `2^63 - 1` are those of the negative numbers. -/
theorem lt_toNat_ofInt_iff_neg {i : Int} (hlow : -(2 ^ 63) ≤ i) (hhigh : i < 2 ^ 63) :
    2 ^ 63 - 1 < (BitVec.ofInt 64 i).toNat ↔ i < 0 := by
  have hread := toNat_ofInt_of_signed hlow hhigh
  split at hread <;> omega

/-- Settles O42: `RDS` reads the stored pattern, and a pattern overflows exactly for a negative number. -/
theorem signedRoundTripIsPartial : Obligations.SignedRoundTripIsPartial := by
  refine ⟨fun s i hlow hhigh => ?_, fun s u hu => ?_⟩
  · obtain ⟨t, hrun, -, hresponses⟩ := run_cmd_then_cmd (i := .lds (BitVec.ofInt 64 i)) (j := .rds)
      (by simp [Instr.mnemonic]) (by decide) s
    refine ⟨t, _, _, hrun, hresponses, ?_⟩
    have hoverflow := lt_toNat_ofInt_iff_neg hlow hhigh
    rw [Answer.response_status, Answer.response_data, show valueAfter (.lds (BitVec.ofInt 64 i)) s.value [] = BitVec.ofInt 64 i from rfl]
    by_cases hneg : i < 0
    · rw [answerTo_rds_of_exceeds (hoverflow.2 hneg), if_pos hneg, if_pos hneg]
      exact ⟨rfl, rfl⟩
    · rw [answerTo_rds_of_fits (mt hoverflow.1 hneg), if_neg hneg, if_neg hneg]
      exact ⟨rfl, rfl⟩
  · obtain ⟨t, hrun, -, hresponses⟩ := run_cmd_then_cmd (i := .ldu u) (j := .rds) (by simp [Instr.mnemonic]) (by decide) s
    refine ⟨t, _, _, hrun, hresponses, ?_⟩
    rw [Answer.response_status, Answer.response_data, show valueAfter (.ldu u) s.value [] = u from rfl,
      answerTo_rds_of_fits (Nat.not_lt.2 hu)]
    exact ⟨rfl, rfl⟩

/-! ### O43: a shift and the shift back -/

/-- R87: what a shift left by `n` drops is the top `n` bits. -/
theorem toNat_shr64_shl64 (v : Word) (n : Nat) :
    (shr64 (shl64 v n) n).toNat = if n ≤ 63 then v.toNat % 2 ^ (64 - n) else 0 := by
  rw [toNat_shr64, toNat_shl64]
  split
  · next hn =>
    have hsplit : (2 : Nat) ^ 64 = 2 ^ (64 - n) * 2 ^ n := by rw [← pow_add, Nat.sub_add_cancel (by omega)]
    rw [hsplit, Nat.mul_mod_mul_right, Nat.mul_div_cancel _ (Nat.two_pow_pos n)]
  · rfl

theorem getLsbD_shr64_shl64 (v : Word) (n : Nat) {k : Nat} (hk : k < 64) :
    (shr64 (shl64 v n) n).getLsbD k = (decide (k + n ≤ 63) && v.getLsbD k) := by
  rw [getLsbD_shr64]
  by_cases hin : k + n ≤ 63
  · rw [getLsbD_shl64 v n (by omega), Nat.add_sub_cancel, decide_eq_true (by omega), decide_eq_true (by omega), decide_eq_true hin,
      Bool.true_and]
  · rw [decide_eq_false (by omega), decide_eq_false hin, Bool.false_and, Bool.false_and]

theorem getLsbD_shl64_shr64 (v : Word) (n : Nat) {k : Nat} (hk : k < 64) :
    (shl64 (shr64 v n) n).getLsbD k = (decide (n ≤ k) && v.getLsbD k) := by
  rw [getLsbD_shl64 _ n hk]
  by_cases hin : n ≤ k
  · rw [getLsbD_shr64, Nat.sub_add_cancel hin, decide_eq_true (by omega), decide_eq_true (by omega), decide_eq_true hin, Bool.true_and]
  · rw [decide_eq_false (by omega), decide_eq_false hin, Bool.false_and, Bool.false_and]

/-- Settles O43: the two runs leave the two compositions of `shl64` and `shr64`. -/
theorem shiftDuality : Obligations.ShiftDuality := by
  intro s n
  obtain ⟨t, hrun, ht, -⟩ := run_cmd_then_cmd (i := .shl n) (j := .shr n) (by simp [Instr.mnemonic]) (by simp [Instr.mnemonic]) s
  obtain ⟨u, hrun', hu, -⟩ := run_cmd_then_cmd (i := .shr n) (j := .shl n) (by simp [Instr.mnemonic]) (by simp [Instr.mnemonic]) s
  refine ⟨t, u, hrun, hrun', ?_⟩
  rw [ht, hu]
  exact ⟨toNat_shr64_shl64 s.value n.toNat, fun k hk => getLsbD_shr64_shl64 s.value n.toNat hk,
    fun k hk => getLsbD_shl64_shr64 s.value n.toNat hk⟩

/-! ### O44, O45: the string of `VALUE` -/

theorem charOfBit_eq_ch1_iff (b : Bool) : charOfBit b = Config.ch1 ↔ b = true := by
  cases b <;> decide

/-- R35: a digit is the character of the bit that it parses to. -/
theorem charOfBit_beq_ch1 {c : Code} (h : c = Config.ch0 ∨ c = Config.ch1) : charOfBit (c == Config.ch1) = c := by
  obtain rfl | rfl := h <;> rfl

/-- R53, R83: parsing reads bit `k` from the `k`-th character from the end, where rendering put it. -/
theorem parseString_renderString (v : Word) : parseString (renderString v) = v := by
  apply BitVec.eq_of_getLsbD_eq
  intro k hk
  rw [getLsbD_parseString _ k hk, length_renderString, decide_eq_true hk, Bool.true_and, getElem?_renderString v _ (by omega),
    show 63 - (64 - 1 - k) = k by omega, Bool.eq_iff_iff, beq_iff_eq, Option.some.injEq, charOfBit_eq_ch1_iff]

/-- R88: the other way round, for a string of 64 digits. -/
theorem renderString_parseString {str : List Code} (hlen : str.length = 64) (hdigits : ∀ c ∈ str, c = Config.ch0 ∨ c = Config.ch1) :
    renderString (parseString str) = str := by
  refine List.ext_getElem? fun k => ?_
  rcases Nat.lt_or_ge k 64 with hk | hk
  · have hget : str[k]? = some str[k] := List.getElem?_eq_getElem (by omega)
    rw [getElem?_renderString _ k hk, getLsbD_parseString _ _ (by omega), hlen, decide_eq_true (by omega), Bool.true_and,
      show 64 - 1 - (63 - k) = k by omega, hget, Option.some_beq_some, charOfBit_beq_ch1 (hdigits _ (List.getElem_mem _))]
  · rw [List.getElem?_eq_none (by rw [length_renderString]; exact hk), List.getElem?_eq_none (by omega)]

/-- R84, R88: only 64 digits can be what `RDSTR` returns. -/
theorem renderString_parseString_eq_iff (str : List Code) :
    renderString (parseString str) = str ↔ str.length = 64 ∧ ∀ c ∈ str, c = Config.ch0 ∨ c = Config.ch1 := by
  refine ⟨fun h => ?_, fun ⟨hlen, hdigits⟩ => renderString_parseString hlen hdigits⟩
  rw [← h]
  exact ⟨length_renderString _, mem_renderString _⟩

/-- Settles O44: `parseString` and `renderString` are inverse to each other on the strings of 64 digits, and only there. -/
theorem stringRoundTrip : Obligations.StringRoundTrip := by
  refine ⟨fun s u => ?_, fun s str hlen => ?_⟩
  · have hload := step_given_ldstrCmd (chars := renderString s.value) (by rw [length_renderString]; decide) u []
    rw [ldstrCmd, length_renderString] at hload
    exact ⟨_, _, _, step_given_cmd (i := .rdstr) (by decide) s [], rfl, hload, parseString_renderString s.value⟩
  · obtain ⟨t, hrun, -, hresponses⟩ := run_event_then_cmd (step_given_ldstrCmd hlen s) (j := .rdstr) (by decide)
    exact ⟨t, _, _, hrun, hresponses, renderString_parseString_eq_iff str⟩

/-- R37: `data[0]` of a Boolean. -/
theorem dataOfBool_eq_one_iff (b : Bool) : dataOfBool b = 1 ↔ b = true := by
  cases b <;> decide

/-- R70: what `BTST` answers at a position from 0 to 63. -/
theorem answerTo_btst_of_toNat_le {pos : Half} (h : pos.toNat ≤ 63) (v : Word) :
    answerTo (.btst pos) v = { data := dataOfBool (v.getLsbD pos.toNat) } := by
  have hpos : bitPosition pos = (pos.toNat : Int) := BitVec.toInt_eq_toNat_of_lt (by omega)
  rw [answerTo_btst, positionInvalid_of_toNat_le h, if_neg Bool.false_ne_true, bitAt, hpos, Int.toNat_natCast]

/-- Settles O45: the data of `BTST i` and `T[63 - i]` both show bit `i` of the one `VALUE`. -/
theorem bitTestAgreesWithTheString : Obligations.BitTestAgreesWithTheString := by
  intro s i hi
  obtain ⟨t, hrun, -, hresponses⟩ := run_cmd_then_cmd (i := .btst i) (j := .rdstr) (by simp [Instr.mnemonic]) (by decide) s
  refine ⟨t, _, _, hrun, hresponses, ?_⟩
  rw [answerTo_btst_of_toNat_le hi, Answer.response_status, Answer.response_data, Answer.response_chars]
  have hchar : (answerTo .rdstr s.value).chars[63 - i.toNat]? = some (charOfBit (s.value.getLsbD i.toNat)) := by
    have hget := getElem?_renderString s.value (63 - i.toNat) (by omega)
    rwa [Nat.sub_sub_self hi] at hget
  refine ⟨rfl, (dataOfBool_eq_one_iff _).trans ?_⟩
  rw [← charOfBit_eq_ch1_iff, ← Option.some.injEq, ← hchar]
  exact Iff.rfl

/-! ### O48: pushes as the digits of a number -/

/-- R123: `b1 * 2^(k-1) + ... + bk`. -/
def numberOfBits (bits : List Bool) : Nat := bits.foldl (fun a b => 2 * a + b.toNat) 0

theorem numberOfBits_concat (bits : List Bool) (b : Bool) : numberOfBits (bits ++ [b]) = 2 * numberOfBits bits + b.toNat :=
  List.foldl_concat ..

theorem numberOfBits_lt (bits : List Bool) : numberOfBits bits < 2 ^ bits.length := by
  induction bits using List.reverseRecOn with
  | nil => exact Nat.one_pos
  | append_singleton bits b ih =>
    rw [numberOfBits_concat, List.length_append, List.length_singleton, pow_succ]
    have := b.toNat_lt
    omega

/-- R123, by induction on the last push. -/
theorem toNat_foldl_push1 (v : Word) (bits : List Bool) :
    (bits.foldl push1 v).toNat = (v.toNat * 2 ^ bits.length + numberOfBits bits) % 2 ^ 64 := by
  induction bits using List.reverseRecOn with
  | nil => rw [List.foldl_nil, List.length_nil, pow_zero, Nat.mul_one, numberOfBits, List.foldl_nil, Nat.add_zero, Nat.mod_eq_of_lt v.isLt]
  | append_singleton bits b ih =>
    rw [List.foldl_concat, toNat_push1, ih, numberOfBits_concat, List.length_append, List.length_singleton, pow_succ 2 bits.length,
      ← Nat.mul_assoc]
    omega

/-- R123: 64 pushes move every bit of the old value out. -/
theorem toNat_foldl_push1_of_length_eq (v : Word) {bits : List Bool} (h : bits.length = 64) :
    (bits.foldl push1 v).toNat = numberOfBits bits := by
  have hlt := numberOfBits_lt bits
  rw [h] at hlt
  rw [toNat_foldl_push1, h, Nat.mul_add_mod_self_right, Nat.mod_eq_of_lt hlt]

/-- Settles O48: the pushes fold `push1`; of 64 or more the last 64 decide. -/
theorem pushesCompose : Obligations.PushesCompose := by
  intro s bits
  obtain ⟨t, hrun, ht⟩ := run_given_pushes bits s
  refine ⟨t, hrun, ht ▸ toNat_foldl_push1 s.value bits, fun hlen => ?_⟩
  have hlast : (bits.drop (bits.length - 64)).length = 64 := by rw [List.length_drop]; omega
  rw [ht, ← List.take_append_drop (bits.length - 64) bits, List.foldl_append, toNat_foldl_push1_of_length_eq _ hlast,
    List.take_append_drop]
  rfl

/-! ### O49: a string as pushes -/

/-- R53, R123: the padding of a string pushes zeros onto 0, which changes nothing. -/
theorem parseString_eq_foldl_push1 (str : List Code) : parseString str = (str.map (· == Config.ch1)).foldl push1 0 := by
  rw [List.foldl_map]
  apply BitVec.eq_of_getLsbD_eq
  intro k hk
  rw [getLsbD_parseString str k hk, getLsbD_foldl_push1 str 0 k hk]
  split
  · next h => rw [decide_eq_true h, Bool.true_and]
  · next h => rw [decide_eq_false h, Bool.false_and, BitVec.ofNat_eq_ofNat, BitVec.getLsbD_zero]

/-- Settles O49: `CLR` leaves 0, and the pushes fold from there to the parsed string. -/
theorem ldstrIsClrThenOnePushForEachCharacter : Obligations.LdstrIsClrThenOnePushForEachCharacter := by
  intro s str hlen
  have hclr := step_given_cmd (i := .clr) (by decide) s (str.map fun c => cmd (.push (c == 0x31)))
  obtain ⟨u, hrun, hu⟩ := run_given_pushes (str.map (· == Config.ch1)) (s.complete 0 {})
  rw [List.length_map, List.map_map] at hrun
  refine ⟨_, u, step_given_ldstrCmd hlen s [], (run_next hclr str.length).trans hrun, ?_⟩
  rw [hu, State.complete_value, State.complete_value, parseString_eq_foldl_push1]

/-! ### O50: `RUN` after pushes -/

/-- R71: the run of ones is determined by where it stops. -/
theorem onesRun_eq_of {v : Word} {k : Nat} (hle : k ≤ 64) (hones : ∀ j < k, v.getLsbD j = true)
    (hstop : k = 64 ∨ v.getLsbD k = false) : onesRun v = k := by
  obtain ⟨hle', hones', hstop'⟩ := onesRun_spec v
  rcases Nat.lt_trichotomy (onesRun v) k with h | h | h
  · have hone := hones _ h
    rcases hstop' with h64 | hzero
    · omega
    · rw [hone] at hzero
      cases hzero
  · exact h
  · have hone := hones' _ h
    rcases hstop with h64 | hzero
    · omega
    · rw [hone] at hzero
      cases hzero

/-- R60: after `j` pushes of 1 the low `j` bits are ones, and above them stands the old value. -/
theorem getLsbD_foldl_push1_replicate_true (v : Word) (j : Nat) {k : Nat} (hk : k < 64) :
    ((List.replicate j true).foldl push1 v).getLsbD k = (decide (k < j) || v.getLsbD (k - j)) := by
  induction j generalizing k with
  | zero => simp
  | succ j ih =>
    rw [List.replicate_succ', List.foldl_concat, getLsbD_push1]
    rcases k with _ | k
    · simp
    · rw [if_neg (Nat.succ_ne_zero k), decide_eq_true hk, Bool.true_and, Nat.add_sub_cancel, ih (by omega), Nat.add_sub_add_right]
      simp

/-- R71, R123: `j` pushes of 1 on a value with bit 0 clear make a run of `j` ones, of 64 when there are more. -/
theorem onesRun_foldl_push1_replicate_true {v : Word} (j : Nat) (h : v.getLsbD 0 = false ∨ 64 ≤ j) :
    onesRun ((List.replicate j true).foldl push1 v) = min j 64 := by
  refine onesRun_eq_of (Nat.min_le_right j 64) (fun k hk => ?_) ?_
  · rw [getLsbD_foldl_push1_replicate_true v j (by omega), decide_eq_true (by omega), Bool.true_or]
  · rcases Nat.lt_or_ge j 64 with hj | hj
    · have hzero : v.getLsbD 0 = false := h.resolve_right (by omega)
      right
      rw [Nat.min_eq_left hj.le, getLsbD_foldl_push1_replicate_true v j hj, Nat.sub_self, hzero]
      simp
    · exact .inl (Nat.min_eq_right hj)

/-- R118: pushes are commands of the interface. -/
theorem all_isPaired_pushes (bits : List Bool) : (bits.map fun b => cmd (.push b)).all HostEvent.isPaired = true := by
  rw [List.all_map, List.all_eq_true]
  exact fun b _ => isPaired_of_decode_some (decode_encode (.push b)) []

/-- R71, R123: `RUN` behind pushes counts the ones of the value they leave. The run of the pushes alone is cut off by O39. -/
theorem run_given_pushes_then_run (bits : List Bool) (s : State) : ∃ (t : State) (r : Response) (before : List Response),
    Host.Core.run Sys2Proof.core (bits.length + 1) (s.given (bits.map (fun b => cmd (.push b)) ++ [cmd .run])) = .next t ∧
      t.responses = before ++ [r] ∧ r.word.extractLsb' 64 8 = 0x00 ∧
      r.word.extractLsb' 0 64 = BitVec.ofNat 64 (onesRun (bits.foldl push1 s.value)) := by
  obtain ⟨u, halone, hpushes⟩ := laterEventsDoNotAffectEarlierOnes _ [cmd .run] s (all_isPaired_pushes bits)
  obtain ⟨u', hrun, hvalue⟩ := run_given_pushes bits s
  rw [List.length_map] at halone hpushes
  obtain rfl : u = u' := Host.Outcome.next.inj (halone.symm.trans hrun)
  have hlast := step_given_cmd (i := .run) (by decide) u []
  refine ⟨_, (answerTo .run u.value).response, u.responses, (run_add hpushes 1).trans (run_next hlast 0), rfl, ?_⟩
  rw [Answer.response_status, Answer.response_data, ← hvalue]
  exact ⟨rfl, rfl⟩

/-- Settles O50: after `PUSH 0` bit 0 is clear, so the ones pushed since are the whole run; 64 ones need no such bit below them. -/
theorem runAfterPushesIsTheCurrentStreak : Obligations.RunAfterPushesIsTheCurrentStreak := by
  intro s bits j
  obtain ⟨t, r, before, hrun, hresponses, hstatus, hdata⟩ := run_given_pushes_then_run (bits ++ [false] ++ List.replicate j true) s
  obtain ⟨u, r', before', hrun', hresponses', hstatus', hdata'⟩ := run_given_pushes_then_run (bits ++ List.replicate (64 + j) true) s
  have hclear : ((bits ++ [false]).foldl push1 s.value).getLsbD 0 = false := by
    rw [List.foldl_concat, getLsbD_push1, if_pos rfl]
  rw [List.foldl_append, onesRun_foldl_push1_replicate_true j (.inl hclear)] at hdata
  rw [List.foldl_append, onesRun_foldl_push1_replicate_true _ (.inr (by omega)), Nat.min_eq_right (by omega)] at hdata'
  rw [List.length_append, List.length_append, List.length_singleton, List.length_replicate] at hrun
  rw [List.length_append, List.length_replicate] at hrun'
  exact ⟨t, u, r, r', before, before', hrun, hresponses, hstatus, hdata, hrun', hresponses', hstatus', hdata'⟩

/-! ### O40, O46: `LDU` and `RDU`; the two forms of a shift -/

/-- Settles O40: `RDU` reads what `LDU` stored. -/
theorem unsignedRoundTrip : Obligations.UnsignedRoundTrip := by
  intro s u
  obtain ⟨t, hrun, -, hresponses⟩ := run_cmd_then_cmd (i := .ldu u) (j := .rdu) (by simp [Instr.mnemonic]) (by decide) s
  exact ⟨t, _, _, hrun, hresponses, Answer.response_status _, Answer.response_data _⟩

/-- Settles O46: the answer of the one form and the value of the other are `shl64`, or `shr64`, of the same `VALUE` and amount. -/
theorem operatorFormsAgreeWithMutatingForms : Obligations.OperatorFormsAgreeWithMutatingForms := by
  intro s n
  have hstep (i : Instr) (hi : i.mnemonic ∈ ([.shl, .shlv, .shr, .shrv] : List Mnemonic)) :=
    step_given_cmd (i := i) (by intro he; simp [he] at hi) s []
  exact ⟨_, _, _, _, (answerTo (.shlv n) s.value).response, (answerTo (.shrv n) s.value).response,
    hstep (.shl n) (by simp [Instr.mnemonic]), hstep (.shlv n) (by simp [Instr.mnemonic]),
    hstep (.shr n) (by simp [Instr.mnemonic]), hstep (.shrv n) (by simp [Instr.mnemonic]),
    rfl, rfl, Answer.response_data _, Answer.response_data _, rfl, rfl⟩

end Sys2Proof.Machine

/-!
PROOFS. The family of the errors (spec/60_exceptions.md): O30, O35. Both read off one inversion of `answerTo`: an answer is `OK`, or it is
one of the two errors a legal command can end with, together with its command and its condition.
-/

namespace Sys2Proof.Machine

/-! ### The causes of an error (R90) -/

theorem answerTo_btst_of_illegal {pos : Half} (h : pos.toInt < 0 ∨ pos.toInt > 63) (v : Word) :
    answerTo (.btst pos) v = { status := .invalidArgument } :=
  (answerTo_btst pos v).trans (if_pos ((positionInvalid_iff pos).2 h))

theorem answerTo_btst_of_legal {pos : Half} (h : ¬ (pos.toInt < 0 ∨ pos.toInt > 63)) (v : Word) :
    answerTo (.btst pos) v = { data := dataOfBool (bitAt v (bitPosition pos)) } :=
  (answerTo_btst pos v).trans (if_neg (mt (positionInvalid_iff pos).1 h))

/-- R90, R94: how a legal command can end. The two errors are those of `RDS` and `BTST`, and each is an answer of its status alone. -/
theorem answerTo_status_cases (i : Instr) (v : Word) :
    (answerTo i v).status = .ok ∨
    (i = .rds ∧ 2 ^ 63 - 1 < v.toNat ∧ answerTo i v = { status := .overflow }) ∨
    (∃ pos, i = .btst pos ∧ (pos.toInt < 0 ∨ pos.toInt > 63) ∧ answerTo i v = { status := .invalidArgument }) := by
  cases i with
  | rds =>
    by_cases hexceeds : 2 ^ 63 - 1 < v.toNat
    · exact .inr (.inl ⟨rfl, hexceeds, answerTo_rds_of_exceeds hexceeds⟩)
    · exact .inl (congrArg Answer.status (answerTo_rds_of_fits hexceeds))
  | btst pos =>
    by_cases hillegal : pos.toInt < 0 ∨ pos.toInt > 63
    · exact .inr (.inr ⟨pos, rfl, hillegal, answerTo_btst_of_illegal hillegal v⟩)
    · exact .inl (congrArg Answer.status (answerTo_btst_of_legal hillegal v))
  | _ => exact .inl rfl

/-! ### O30: which commands can fail -/

/-- Settles O30: the command completes with `answerTo`, whose status is one of those of `answerTo_status_cases`. -/
theorem onlyRdsAndBtstCanFail : Obligations.OnlyRdsAndBtstCanFail := by
  intro i s h
  refine ⟨_, _, _, _, _, exec_eq_complete h, answered_complete _ _ _, ?_⟩
  obtain hok | ⟨rfl, -, herror⟩ | ⟨pos, rfl, -, herror⟩ := answerTo_status_cases i s.value
  · exact .inl (congrArg Status.code hok)
  · exact .inr (.inl ⟨rfl, congrArg (·.status.code) herror⟩)
  · exact .inr (.inr ⟨rfl, congrArg (·.status.code) herror⟩)

/-! ### O35: what an error leaves -/

/-- R36: the one response a completed command adds is its answer's. -/
theorem response_of_complete {s : State} {rest : List HostEvent} {v : Word} {a : Answer} {r : Response}
    (h : ((s.given rest).complete v a).responses = s.responses ++ [r]) : r = a.response :=
  (List.singleton_inj.1 (List.append_cancel_left h)).symm

/-- Settles O35: a step without a command adds no response; a legal word fails only as `answerTo_status_cases` says, and `RDS` and `BTST`
keep `VALUE`; an illegal word keeps it and has the third error. -/
theorem errorsHaveTheirOneCauseAndChangeNothing : Obligations.ErrorsHaveTheirOneCauseAndChangeNothing := by
  intro s t r hstep hresponses
  obtain ⟨-, rfl⟩ | ⟨rest, -, rfl⟩ | ⟨cw, chars, rest, i, hp, hd, -, rfl⟩ | ⟨cw, rest, hp, hd, rfl⟩ := step_next_cases hstep
  · simp at hresponses
  · simp at hresponses
  · obtain rfl := response_of_complete hresponses
    rw [Answer.response_status, Answer.response_data, Answer.response_chars]
    obtain hok | ⟨rfl, hexceeds, herror⟩ | ⟨pos, rfl, hillegal, herror⟩ := answerTo_status_cases i s.value
    · exact .inl (congrArg Status.code hok)
    · rw [herror]
      exact .inr ⟨rfl, rfl, rfl, cw, chars, rest, hp, rfl, .inl ⟨rfl, hd, hexceeds⟩⟩
    · rw [herror]
      exact .inr ⟨rfl, rfl, rfl, cw, chars, rest, hp, rfl, .inr (.inl ⟨rfl, pos, hd, hillegal⟩)⟩
  · obtain rfl := response_of_complete hresponses
    rw [Answer.response_status, Answer.response_data, Answer.response_chars]
    exact .inr ⟨rfl, rfl, rfl, cw, [], rest, hp, rfl, .inr (.inr ⟨rfl, hd⟩)⟩

end Sys2Proof.Machine

/-!
PROOFS. The family of reset and the hazards (spec/70_reset_and_hazards.md): O8, O32. Both rest on what one step does to the event it
performs: reset clears `VALUE` and answers nothing, a command pair of the interface is answered once, and either leaves the rest waiting.
-/

namespace Sys2Proof.Machine

/-! ### O32: no run stops while the host keeps its duty -/

theorem State.given_self (s : State) : s.given s.pending = s := rfl

/-- R118: the duty towards what waits is the duty towards the next event and towards those behind it. -/
theorem hostObeys_iff_of_pending_cons {s : State} {e : HostEvent} {rest : List HostEvent} (hp : s.pending = e :: rest) :
    s.hostObeys = true ↔ e.isPaired = true ∧ rest.all HostEvent.isPaired = true := by
  rw [State.hostObeys, hp, List.all_cons, Bool.and_eq_true]

theorem commandCount_cons (e : HostEvent) (es : List HostEvent) : commandCount (e :: es) = commandCount [e] + commandCount es := by
  cases e with
  | reset => exact (Nat.zero_add _).symm
  | command cw chars => exact Nat.add_comm _ 1

/-- R110, R116: a step at an event of the interface completes; it performs that event alone, and answers it if it is a command. -/
theorem step_of_pending_paired {s : State} {e : HostEvent} {rest : List HostEvent} (hp : s.pending = e :: rest)
    (he : e.isPaired = true) :
    ∃ t : State, step s = .next t ∧ t.pending = rest ∧ t.responses.length = s.responses.length + commandCount [e] := by
  cases e with
  | reset => exact ⟨_, step_of_pending_reset hp, State.applyReset_pending s rest, rfl⟩
  | command cw chars =>
    obtain ⟨hanswered, -⟩ := everyCommandGetsExactlyOneResponse
    obtain ⟨t, -, -, -, -, hstep, ⟨-, hpending, -, r, hresponses, -⟩, -⟩ := hanswered s cw chars rest he
    rw [← hp, State.given_self] at hstep
    refine ⟨t, hstep, hpending, ?_⟩
    rw [hresponses, List.length_append]
    rfl

/-- Settles O32, by induction on the steps: the first event is performed by `step_of_pending_paired`, which leaves the others, and with
them the duty, to the steps that follow. -/
theorem runsCompleteWhileTheHostKeepsItsDuty : Obligations.RunsCompleteWhileTheHostKeepsItsDuty := by
  intro n
  induction n with
  | zero => exact fun s hs _ => ⟨s, rfl, hs, rfl, rfl⟩
  | succ n ih =>
    intro s hs hn
    obtain ⟨e, rest, hp⟩ := List.exists_cons_of_length_pos (Nat.zero_lt_of_lt hn)
    obtain ⟨he, hrest⟩ := (hostObeys_iff_of_pending_cons hp).1 hs
    obtain ⟨u, hstep, hu, hfirst⟩ := step_of_pending_paired hp he
    have hduty : u.hostObeys = true := by rw [State.hostObeys, hu, hrest]
    have hleft : n ≤ u.pending.length := by
      rw [hp, List.length_cons] at hn
      rw [hu]
      exact Nat.le_of_succ_le_succ hn
    obtain ⟨t, hrun, ht, hpending, hlater⟩ := ih u hduty hleft
    refine ⟨t, (run_next hstep n).trans hrun, ht, ?_, ?_⟩
    · rw [hpending, hu, hp, List.drop_succ_cons]
    · rw [hlater, hfirst, hu, hp, List.take_succ_cons, commandCount_cons e (rest.take n), Nat.add_assoc]

/-! ### O8: the reset event -/

/-- Settles O8: reset and `CLR` both leave 0 in `VALUE`, and reset answers nothing. -/
theorem resetEventSetsValueToZero : Obligations.ResetEventSetsValueToZero := by
  refine ⟨State.reset_value, fun s rest => ?_⟩
  have hreset : step (s.given (.reset :: rest)) = .next ((s.given (.reset :: rest)).applyReset rest) := step_of_pending_reset rfl
  have hclr := step_given_cmd (i := .clr) (by decide) s rest
  exact ⟨_, _, hreset, hclr, State.applyReset_value _ rest, State.complete_value _ _ _, State.applyReset_responses _ rest⟩

end Sys2Proof.Machine

/-!
PROOFS. The remaining statements: O9, O34. With no event waiting the block stays as it is (R103, log 7); and the state a run starts from
satisfies the invariant that `everyStepKeepsTheInvariant` carries along it.
-/

namespace Sys2Proof.Machine

/-! ### O9: a step with nothing pending -/

/-- Settles O9: of the cases of a step it is the idle one, which `step_of_pending_nil` computes. -/
theorem stepWithNothingPendingHoldsValue : Obligations.StepWithNothingPendingHoldsValue :=
  fun _ hidle => step_of_pending_nil hidle

/-! ### O34: the invariant at reset -/

/-- A state that has answered nothing satisfies the invariant as soon as it holds no input: there is no response whose shape could be wrong. -/
theorem State.inv_of_responses_eq_nil {s : State} (hinput : s.input = []) (hresponses : s.responses = []) : s.Inv :=
  ⟨hinput, fun _ hr => absurd (hresponses ▸ hr) List.not_mem_nil⟩

/-- Settles O34: reset leaves both the input and the record of responses empty. -/
theorem invariantHoldsAfterReset : Obligations.InvariantHoldsAfterReset :=
  State.inv_of_responses_eq_nil State.reset_input State.reset_responses

end Sys2Proof.Machine
